-- ==== Sys2Proof/Config.lean ====
section
/-! DEFINITION. The parameters of the block (spec/00_scope.md R6). `MAXLEN` is open there and may be taken
unbounded; the model takes it so (notes/assumptions/5.md) and keeps the two register widths it fixes as
functions of it. No value is left free: every rule of the spec states its result. -/

namespace Sys2Proof.Config

/-- `EG_PREFIX_MAX`: the largest accepted count of leading zero bits of an Exp-Golomb code (R6). -/
def egPrefixMax : Nat := 31

/-- `EG_WIDTH_MAX`: the largest accepted `n` of `EG.RDBITS` (R6). -/
def egWidthMax : Nat := 32

/-- `AV_WIDTH_MAX`: the largest accepted `n` of `AV.RDBITS` (R6). -/
def avWidthMax : Nat := 64

/-- `VU_SCAN_MAX`: the most bytes `VU.DEC` scans (R6). -/
def vuScanMax : Nat := 10

/-- `N_W` bits hold the immediate of a command word: the largest immediate is 255 (R6, R53). -/
def immediateMax : Nat := 255

/-- `POS_W`: the least `w` with `8 * MAXLEN < 2^w` (R6). -/
def posWidth (maxLen : Nat) : Nat := Nat.size (8 * maxLen)

/-- `BYTE_W`: the least `w` with `MAXLEN < 2^w` (R6). -/
def byteWidth (maxLen : Nat) : Nat := Nat.size maxLen

end Sys2Proof.Config
end

