-- ==== Sys2Proof/Word.lean ====
section
/-! DEFINITION. The words of the block: bytes of a payload (spec/20_memory.md R30) and command words
(spec/30_encoding.md R51). Bit `i` of either is the bit of weight `2^i` (spec/00_scope.md R8 (a)). -/

namespace Sys2Proof

/-- A byte of a payload or of an operand: "A byte is 8 bits" (R30). -/
abbrev Byte := BitVec 8

/-- A command word `CMD[15:0]`, bit 15 the most significant (R51). -/
abbrev CmdWord := BitVec 16

end Sys2Proof
end

