-- ==== Sys2Proof/Machine/State.lean ====
section
/-! DEFINITION. The state of the block: the seven elements of spec/10_state.md R10, and the two fields through which a
machine whose step takes a state alone meets its host: what the host will present, and what it has been answered
(notes/assumptions/1.md, notes/assumptions/2.md). -/

namespace Sys2Proof.Machine

/-- A byte-addressed space (spec/20_memory.md R30): the bytes it holds, by index, in one canonical form: addresses
strictly rising. An address that is not listed reads as no value: it does not exist (R31, R39). -/
abbrev Memory := List Host.Cell

/-- The `kind` field of a response (spec/60_exceptions.md R120). Codes 5 and 6 are never produced and have no
constructor. -/
inductive Kind where
  /-- `NONE`, code 0: the command succeeded. -/
  | none
  /-- `EXHAUSTED`, code 1: a bit was needed and the position was at the end of the payload. -/
  | exhausted
  /-- `MALFORMED_CODE`, code 2: 32 consecutive zero bits were read as the prefix of an Exp-Golomb code. -/
  | malformedCode
  /-- `INVALID_WIDTH`, code 3: the bit count of a `RDBITS` is above the reader's bound. -/
  | invalidWidth
  /-- `UNTERMINATED_VARUINT`, code 4: no byte with a clear high bit among the bytes scanned. -/
  | unterminatedVaruint
  /-- `ILLEGAL_COMMAND`, code 7: the command word spells no command. -/
  | illegalCommand
  deriving DecidableEq, Repr

/-- The response record, with the field widths of spec/30_encoding.md R55. -/
structure Response where
  /-- 1 bit: the operation succeeded. -/
  ok : Bool
  /-- 3 bits: the failure kind (`Kind.code`). -/
  kind : Kind
  /-- 64 bits: the decoded value. -/
  value : BitVec 64
  /-- 4 bits: the bytes a successful `VU.DEC` used. -/
  consumed : BitVec 4
  deriving DecidableEq, Repr

/-- Unit EG (spec/10_state.md R10, R13): the cursor is a global bit index. -/
structure EgReader where
  /-- `EG.BUF`. -/
  buf : Memory
  /-- `EG.LEN`, in bytes. -/
  len : Nat
  /-- `EG.POS`, the stream-bit index of the next bit to consume. -/
  pos : Nat
  deriving DecidableEq, Repr

/-- Unit AV (spec/10_state.md R10, R14): the cursor is a byte index and a bit index. -/
structure AvReader where
  /-- `AV.BUF`. -/
  buf : Memory
  /-- `AV.LEN`, in bytes. -/
  len : Nat
  /-- `AV.BYTE`, the index of the byte that holds the next bit. -/
  byte : Nat
  /-- `AV.BIT`, 3 bits: the stream-bit number of the next bit inside that byte, 0 the most significant. -/
  bit : Fin 8
  deriving DecidableEq, Repr

/-- What the block's outside presents to it, one at a time (spec/00_scope.md R7, spec/70_reset_and_hazards.md R150). -/
inductive HostEvent where
  /-- The host issues a command: a command word and the byte sequence given with it (spec/30_encoding.md R50). -/
  | command (word : CmdWord) (operand : List Byte)
  /-- The platform asserts the reset input: "a step of its own between commands" (R150). -/
  | reset
  deriving DecidableEq, Repr

/-- The state. Unit VU has none (spec/10_state.md R17). -/
structure State where
  /-- Unit EG. -/
  eg : EgReader
  /-- Unit AV. -/
  av : AvReader
  /-- The model's own: what the host and the platform will present, oldest first. -/
  pending : List HostEvent
  /-- The model's own: the responses the host has been given, oldest first. No command reads it. -/
  responses : List Response
  deriving DecidableEq, Repr

/-- Why a step stops with a fault. The block has no exceptions (spec/60_exceptions.md R128): a failed command is a
response, not a fault. -/
inductive Fault where
  /-- `MemRead` was asked for a byte that the payload does not hold, which spec/20_memory.md R31 leaves undefined. Raised
  by the bit step of a reader whose length register is not the length of its payload, a state that no run reaches
  (spec/10_state.md R10). Safe: the model stops where the spec gives no byte. -/
  | memReadUndefined
  deriving DecidableEq, Repr

/-- Why a step is refused. -/
inductive Refusal where
  /-- The instruction has no meaning yet. Raised by no arm of `exec`. Safe. -/
  | notModelled (mnemonic : String)
  deriving DecidableEq, Repr

/-- Unit EG after reset: an empty payload, length and position 0 (spec/10_state.md R21). -/
def EgReader.reset : EgReader := { buf := [], len := 0, pos := 0 }

/-- Unit AV after reset: an empty payload, length and position 0 (spec/10_state.md R21). -/
def AvReader.reset : AvReader := { buf := [], len := 0, byte := 0, bit := 0 }

/-- The machine right after reset (spec/10_state.md R21). DESIGN CHOICE (notes/assumptions/1.md,
notes/assumptions/2.md): nothing is presented to it and nothing has been answered. -/
def State.reset : State := { eg := .reset, av := .reset, pending := [], responses := [] }

end Sys2Proof.Machine
end

