-- ==== Sys2Proof/Machine/Operands.lean ====
section
/-! DEFINITION. The operand forms of a command (spec/30_encoding.md R50, R53, R54): the immediate bit count and its bound
for each reader, the payload of an `INIT`, and the byte sequence of `VU.DEC` with its port-level form. -/

namespace Sys2Proof.Machine

/-- The bit count is above what `EG.RDBITS` accepts (spec/40_expgolomb_reader.md R72). -/
def egWidthInvalid (n : Nat) : Bool := decide (Config.egWidthMax < n)

/-- The bit count is above what `AV.RDBITS` accepts (spec/41_av1_reader.md R92). -/
def avWidthInvalid (n : Nat) : Bool := decide (Config.avWidthMax < n)

/-- The byte space that holds a byte sequence from index `a` on. -/
def Memory.ofBytesFrom : Nat → List Byte → Memory
  | _, [] => []
  | a, b :: bs => (a, b) :: Memory.ofBytesFrom (a + 1) bs

/-- The payload space of a reader constructed over the byte sequence `p`: indices 0 to `|p| - 1` (spec/20_memory.md
R30). -/
def Memory.ofBytes (p : List Byte) : Memory := Memory.ofBytesFrom 0 p

/-- The bytes of the operand of `VU.DEC` that the command may scan: at most the first ten (R54 (b)). -/
def vuScanned (s : List Byte) : List Byte := s.take Config.vuScanMax

/-- The port-level form of the operand of `VU.DEC`: ten byte lanes `VU_B0` to `VU_B9` and the 4-bit count `VU_AVAIL`
(R54 (b)). -/
structure VuWindow where
  /-- `VU_B0` to `VU_B9`. -/
  lanes : Vector Byte 10
  /-- `VU_AVAIL`. -/
  avail : BitVec 4
  deriving DecidableEq, Repr

/-- The byte sequence a window presents: lanes at or above the count are ignored, and count values 11 to 15 mean the
same as 10 (R54 (b)). -/
def VuWindow.bytes (v : VuWindow) : List Byte := v.lanes.toList.take (min Config.vuScanMax v.avail.toNat)

/-- The window that presents the byte sequence `s`: `VU_Bi = s[i]` and `VU_AVAIL = min(|s|, 10)` (R54 (b)); an unused
lane is driven to 0, which nothing reads. -/
def VuWindow.ofBytes (s : List Byte) : VuWindow :=
  { lanes := Vector.ofFn fun i => s.getD i.val 0, avail := BitVec.ofNat 4 (min s.length Config.vuScanMax) }

end Sys2Proof.Machine
end

