-- ==== Sys2Proof/Syntax.lean ====
section
/-! DEFINITION. The eleven commands of the block (spec/30_encoding.md R50, R52; spec/opcode_table.json), each with
the operands R50 gives it: `n` is the immediate of the two `RDBITS` commands (R53), a byte sequence is the operand
delivered with `INIT` and `VU.DEC` (R54), carried as a value as R54 says. -/

namespace Sys2Proof

/-- One constructor per row of spec/opcode_table.json. -/
inductive Instr where
  /-- `EG.INIT`: construct an Exp-Golomb reader over a payload (R110). -/
  | egInit (payload : List Byte)
  /-- `EG.RDBIT`: read one bit (R71). -/
  | egRdbit
  /-- `EG.RDBITS n`: read an `n`-bit field (R72). -/
  | egRdbits (n : Nat)
  /-- `EG.RDUE`: decode one unsigned Exp-Golomb code (R73). -/
  | egRdue
  /-- `EG.RDSE`: decode one signed Exp-Golomb code (R76). -/
  | egRdse
  /-- `EG.SKUE`: step over one unsigned Exp-Golomb code (R77). -/
  | egSkue
  /-- `EG.SKSE`: step over one signed Exp-Golomb code (R78). -/
  | egSkse
  /-- `AV.INIT`: construct an AV1 reader over a payload (R111). -/
  | avInit (payload : List Byte)
  /-- `AV.RDBIT`: read one bit (R91). -/
  | avRdbit
  /-- `AV.RDBITS n`: read an `n`-bit field (R92). -/
  | avRdbits (n : Nat)
  /-- `VU.DEC`: decode one variable-length unsigned integer (R100). -/
  | vuDec (s : List Byte)
  deriving DecidableEq, Repr

/-- The three units (spec/00_scope.md R2). -/
inductive BlockUnit where
  /-- The Exp-Golomb bit reader. -/
  | eg
  /-- The AV1 bit reader. -/
  | av
  /-- The variable-length unsigned integer decoder. -/
  | vu
  deriving DecidableEq, Repr

/-- The unit a command addresses (R52). -/
def Instr.unit : Instr → BlockUnit
  | .egInit _ => .eg
  | .egRdbit => .eg
  | .egRdbits _ => .eg
  | .egRdue => .eg
  | .egRdse => .eg
  | .egSkue => .eg
  | .egSkse => .eg
  | .avInit _ => .av
  | .avRdbit => .av
  | .avRdbits _ => .av
  | .vuDec _ => .vu

/-- The mnemonic of a command, as R52 and spec/opcode_table.json spell it. -/
def Instr.mnemonic : Instr → String
  | .egInit _ => "EG.INIT"
  | .egRdbit => "EG.RDBIT"
  | .egRdbits _ => "EG.RDBITS"
  | .egRdue => "EG.RDUE"
  | .egRdse => "EG.RDSE"
  | .egSkue => "EG.SKUE"
  | .egSkse => "EG.SKSE"
  | .avInit _ => "AV.INIT"
  | .avRdbit => "AV.RDBIT"
  | .avRdbits _ => "AV.RDBITS"
  | .vuDec _ => "VU.DEC"

end Sys2Proof
end

