-- ==== Sys2Proof/WellFormed.lean ====
section
/-! DEFINITION. Which commands can be written: the immediate fits its eight bits (spec/30_encoding.md R53), and, for a
block whose payloads hold at most `maxLen` bytes, the payload of an `INIT` is no longer than that (R54 (a)). -/

namespace Sys2Proof

/-- The immediate is a natural number from 0 to 255 (R53). -/
def immediateFits (n : Nat) : Bool := decide (n ≤ Config.immediateMax)

/-- A command the command word can carry (R53). Payloads of every length are admitted: `MAXLEN` is taken unbounded. -/
def Instr.wf : Instr → Bool
  | .egInit _ => true
  | .egRdbit => true
  | .egRdbits n => immediateFits n
  | .egRdue => true
  | .egRdse => true
  | .egSkue => true
  | .egSkse => true
  | .avInit _ => true
  | .avRdbit => true
  | .avRdbits n => immediateFits n
  | .vuDec _ => true

/-- The byte sequence an `INIT` delivers, if the command is one (R54 (a)). -/
def Instr.payload? : Instr → Option (List Byte)
  | .egInit p => some p
  | .egRdbit => none
  | .egRdbits _ => none
  | .egRdue => none
  | .egRdse => none
  | .egSkue => none
  | .egSkse => none
  | .avInit p => some p
  | .avRdbit => none
  | .avRdbits _ => none
  | .vuDec _ => none

/-- A well-formed command of a block whose `MAXLEN` is `maxLen`: an `INIT` carries at most `maxLen` bytes; the
operand of `VU.DEC` may have any length (R54). -/
def Instr.wfWithin (maxLen : Nat) (i : Instr) : Bool :=
  i.wf && (match i.payload? with
    | some p => decide (p.length ≤ maxLen)
    | none => true)

end Sys2Proof
end

