-- ==== Sys2Proof/Decode.lean ====
section
/-! DEFINITION. From a command word and the byte sequence given with it to a command, and back
(spec/30_encoding.md R50 to R58). The decoder reads the four fields of R51; the opcode map of R52 stands beside it as
a table of `match` and `mask` rows, and a statement says that the two agree. -/

namespace Sys2Proof

/-- `CMD[15:14]` (R51). -/
def unitField (w : CmdWord) : BitVec 2 := w.extractLsb' 14 2

/-- `CMD[13:11]` (R51). -/
def opField (w : CmdWord) : BitVec 3 := w.extractLsb' 11 3

/-- `CMD[10:8]`, reserved (R51). -/
def rsvField (w : CmdWord) : BitVec 3 := w.extractLsb' 8 3

/-- `CMD[7:0]`, the immediate (R51). -/
def immField (w : CmdWord) : BitVec 8 := w.extractLsb' 0 8

/-- Why a word is illegal: the clauses of R57. All of them get the one response `ILLEGAL_COMMAND` (R125); which name a
word gets, where more than one applies, is not visible to the host. -/
inductive DecodeReject where
  /-- `UNIT = 11`. -/
  | reservedUnit
  /-- `RSV` is not `000`. -/
  | reservedBits
  /-- `OP` selects no operation of the unit. -/
  | reservedOp
  /-- `N` is not `0x00` in a command other than the two `RDBITS`. -/
  | nonzeroImmediate
  deriving DecidableEq, Repr

/-- A command without immediate: `N` must be `0x00` (R51). -/
def withoutImmediate (w : CmdWord) (i : Instr) : Except DecodeReject Instr :=
  if immField w = 0 then .ok i else .error .nonzeroImmediate

/-- The operations of unit EG by their `OP` code (R52). -/
def decodeEg (w : CmdWord) (operand : List Byte) : Except DecodeReject Instr :=
  match (opField w).toNat with
  | 1 => withoutImmediate w (.egInit operand)
  | 2 => withoutImmediate w .egRdbit
  | 3 => .ok (.egRdbits (immField w).toNat)
  | 4 => withoutImmediate w .egRdue
  | 5 => withoutImmediate w .egRdse
  | 6 => withoutImmediate w .egSkue
  | 7 => withoutImmediate w .egSkse
  | _ => .error .reservedOp

/-- The operations of unit AV by their `OP` code (R52). -/
def decodeAv (w : CmdWord) (operand : List Byte) : Except DecodeReject Instr :=
  match (opField w).toNat with
  | 1 => withoutImmediate w (.avInit operand)
  | 2 => withoutImmediate w .avRdbit
  | 3 => .ok (.avRdbits (immField w).toNat)
  | _ => .error .reservedOp

/-- The operation of unit VU by its `OP` code (R52). -/
def decodeVu (w : CmdWord) (operand : List Byte) : Except DecodeReject Instr :=
  match (opField w).toNat with
  | 1 => withoutImmediate w (.vuDec operand)
  | _ => .error .reservedOp

/-- The command that a word and the byte sequence given with it spell (R50 to R54), or why the word is illegal (R57).
DESIGN CHOICE (unsafe, notes/assumptions/6.md): a byte sequence given with a word that takes none is not looked at. -/
def decode (w : CmdWord) (operand : List Byte) : Except DecodeReject Instr :=
  if rsvField w ≠ 0 then .error .reservedBits
  else match (unitField w).toNat with
    | 0 => decodeEg w operand
    | 1 => decodeAv w operand
    | 2 => decodeVu w operand
    | _ => .error .reservedUnit

/-- Some command is spelled by the word (R57). Whether a word is legal does not depend on the operand. -/
def legalWord (w : CmdWord) : Bool := (decode w []).isOk

/-! ### The encoder -/

/-- A command word from its fields; `RSV` is `000` (R51). -/
def cmdWord (unit : BitVec 2) (op : BitVec 3) (n : BitVec 8) : CmdWord := unit ++ op ++ 0#3 ++ n

/-- The command word of a command, from the `UNIT` and `OP` columns of R52. -/
def encodeWord : Instr → CmdWord
  | .egInit _ => cmdWord 0b00 0b001 0
  | .egRdbit => cmdWord 0b00 0b010 0
  | .egRdbits n => cmdWord 0b00 0b011 (BitVec.ofNat 8 n)
  | .egRdue => cmdWord 0b00 0b100 0
  | .egRdse => cmdWord 0b00 0b101 0
  | .egSkue => cmdWord 0b00 0b110 0
  | .egSkse => cmdWord 0b00 0b111 0
  | .avInit _ => cmdWord 0b01 0b001 0
  | .avRdbit => cmdWord 0b01 0b010 0
  | .avRdbits n => cmdWord 0b01 0b011 (BitVec.ofNat 8 n)
  | .vuDec _ => cmdWord 0b10 0b001 0

/-- The byte sequence given with a command: three commands have one (R50, R54), the others none. -/
def encodeOperand : Instr → List Byte
  | .egInit p => p
  | .egRdbit => []
  | .egRdbits _ => []
  | .egRdue => []
  | .egRdse => []
  | .egSkue => []
  | .egSkse => []
  | .avInit p => p
  | .avRdbit => []
  | .avRdbits _ => []
  | .vuDec s => s

/-- What the host presents to issue a command: the word and the operand byte sequence (R50). -/
def encode (i : Instr) : CmdWord × List Byte := (encodeWord i, encodeOperand i)

/-! ### The opcode map of R52 -/

/-- A row of the opcode map: "a word `w` selects the row when `(w & mask) = match`" (R52). -/
structure OpcodeRow where
  /-- The row's mnemonic. -/
  mnemonic : String
  /-- The column `match`. -/
  pattern : CmdWord
  /-- The column `mask`. -/
  mask : CmdWord
  deriving DecidableEq, Repr

/-- The row selects the word (R52). -/
def OpcodeRow.selects (r : OpcodeRow) (w : CmdWord) : Bool := w &&& r.mask == r.pattern

/-- The eleven rows of R52, in the order and with the numbers of its table. -/
def opcodeRows : List OpcodeRow :=
  [ ⟨"EG.INIT", 0x0800, 0xFFFF⟩, ⟨"EG.RDBIT", 0x1000, 0xFFFF⟩, ⟨"EG.RDBITS", 0x1800, 0xFF00⟩,
    ⟨"EG.RDUE", 0x2000, 0xFFFF⟩, ⟨"EG.RDSE", 0x2800, 0xFFFF⟩, ⟨"EG.SKUE", 0x3000, 0xFFFF⟩,
    ⟨"EG.SKSE", 0x3800, 0xFFFF⟩, ⟨"AV.INIT", 0x4800, 0xFFFF⟩, ⟨"AV.RDBIT", 0x5000, 0xFFFF⟩,
    ⟨"AV.RDBITS", 0x5800, 0xFF00⟩, ⟨"VU.DEC", 0x8800, 0xFFFF⟩ ]

/-! ### The host's numbering -/

/-- The operand bytes that an instruction of `nbits` bits holds above its 16-bit command word, the first byte lowest.
Every row of the opcode table has 16 bits, so it gives the empty sequence (notes/assumptions/16.md). -/
def tableOperand (nbits w : Nat) : List Byte :=
  (List.range ((nbits - 16) / 8)).map fun k => BitVec.ofNat 8 (w / 2 ^ (16 + 8 * k))

/-- The command the decoder reads from an instruction whose `nbits` bits are `w`: its first 16 bits are the command
word, bit 0 the least significant. -/
def decodeTableWord (nbits w : Nat) : Option Instr :=
  (decode (BitVec.ofNat 16 (w % 2 ^ nbits)) (tableOperand nbits w)).toOption

end Sys2Proof
end

