-- ==== Sys2Proof/Machine/Flags.lean ====
section
/-! DEFINITION. The block has no flags (spec/10_state.md R18). What an instruction reports instead is the response
record (spec/30_encoding.md R55): this file holds how its four fields are computed, and nothing latches them. -/

namespace Sys2Proof.Machine

/-- The 3-bit code of a kind (spec/60_exceptions.md R120). -/
def Kind.code : Kind → BitVec 3
  | .none => 0
  | .exhausted => 1
  | .malformedCode => 2
  | .invalidWidth => 3
  | .unterminatedVaruint => 4
  | .illegalCommand => 7

/-- `return (v)`: `ok = 1`, `kind = NONE`, `consumed = 0` (R55). -/
def Response.success (v : BitVec 64) : Response := { ok := true, kind := .none, value := v, consumed := 0 }

/-- `return (value = v, consumed = c)`, which only `VU.DEC` gives (R55). -/
def Response.successVar (v : BitVec 64) (c : Nat) : Response :=
  { ok := true, kind := .none, value := v, consumed := BitVec.ofNat 4 c }

/-- `fail KIND`: `ok = 0`, and `value` and `consumed` are driven to 0 (spec/60_exceptions.md R121). -/
def Response.failure (k : Kind) : Response := { ok := false, kind := k, value := 0, consumed := 0 }

end Sys2Proof.Machine
end

