-- ==== Sys2Proof/Machine/Ops.lean ====
section
/-! DEFINITION. The operations the meanings share: reading a byte and a stream bit of a payload (spec/20_memory.md), the
result of a read that may fail part-way (spec/60_exceptions.md R121, R123), returning a response, and what a step does
before a command runs. The block takes no exception and returns from none (R128): a failed command returns a response
and nothing else happens, so `fail` and `Attempt` are all there is of it. -/

namespace Sys2Proof.Machine

/-! ### Payload memory -/

/-- One byte of a space: no value where the space holds none. -/
def Memory.read (m : Memory) (a : Nat) : Option Byte := m.lookup a

/-- The canonical form: addresses strictly rising. (There is no second clause: an unlisted address reads as no value,
so no entry can equal what it reads as.) -/
def Memory.wf (m : Memory) : Bool := decide (m.Pairwise fun c d => c.1 < d.1)

/-- `MemRead(U, a, 1)`, "defined only for `0 <= a < U.LEN`" (spec/20_memory.md R31). -/
def memRead (buf : Memory) (len a : Nat) : Option Byte := if a < len then Memory.read buf a else none

/-- `StreamBit(U, i) = MemRead(U, i div 8, 1)[7 - (i mod 8)]` (spec/20_memory.md R33). -/
def streamBit (buf : Memory) (len i : Nat) : Option Bool := (memRead buf len (i / 8)).map (·.getLsbD (7 - i % 8))

/-- `AV_POS = 8 * AV.BYTE + AV.BIT` (spec/10_state.md R15). -/
def AvReader.globalPos (r : AvReader) : Nat := 8 * r.byte + r.bit.val

/-! ### Reads that may fail part-way -/

/-- How the steps of a command end: with a value, or with `fail KIND`; either way with the reader as the bits consumed
so far left it (spec/60_exceptions.md R123). The third case is `MemRead` where it is not defined. -/
inductive Attempt (ρ α : Type) where
  /-- The steps went through. -/
  | done (v : α) (r : ρ)
  /-- `fail KIND`: "keep every state change made so far in this command" (spec/00_scope.md section 6). -/
  | fail (k : Kind) (r : ρ)
  /-- The steps asked `MemRead` for a byte that does not exist. -/
  | stop (f : Fault)
  deriving DecidableEq, Repr

/-- Steps one after the other: the first failure ends the command, and nothing is rolled back (R123). -/
def Attempt.bind {ρ α β : Type} (a : Attempt ρ α) (f : α → ρ → Attempt ρ β) : Attempt ρ β :=
  match a with
  | .done v r => f v r
  | .fail k r => .fail k r
  | .stop e => .stop e

/-- The same steps, with another value computed from theirs. -/
def Attempt.map {ρ α β : Type} (g : α → β) (a : Attempt ρ α) : Attempt ρ β := a.bind fun v r => .done (g v) r

/-- `b <- NEXT(); if b = none then fail EXHAUSTED`, the use every read command makes of its unit's bit step
(spec/40_expgolomb_reader.md R71 to R73, spec/41_av1_reader.md R91, R92). -/
def Attempt.ofNext {ρ : Type} : Except Fault (Option Bool × ρ) → Attempt ρ Bool
  | .ok (some b, r) => .done b r
  | .ok (none, r) => .fail .exhausted r
  | .error f => .stop f

/-! ### Answering -/

/-- Return one response to the host (spec/30_encoding.md R55). -/
def State.respond (s : State) (r : Response) : State := { s with responses := s.responses ++ [r] }

/-- Unit EG becomes `r`. -/
def State.withEg (s : State) (r : EgReader) : State := { s with eg := r }

/-- Unit AV becomes `r`. -/
def State.withAv (s : State) (r : AvReader) : State := { s with av := r }

/-- The end of an EG read command: the unit keeps the position it reached, and the response carries the 32-bit value in
`value[31:0]` with `value[63:32]` at 0 (R55). -/
def State.finishEg (s : State) : Attempt EgReader (BitVec 32) → Host.Outcome State Fault Refusal
  | .done v r => .next ((s.withEg r).respond (.success (v.setWidth 64)))
  | .fail k r => .next ((s.withEg r).respond (.failure k))
  | .stop f => .fault f

/-- The end of an AV read command: the unit keeps the position it reached, and the response carries all 64 bits (R55). -/
def State.finishAv (s : State) : Attempt AvReader (BitVec 64) → Host.Outcome State Fault Refusal
  | .done v r => .next ((s.withAv r).respond (.success v))
  | .fail k r => .next ((s.withAv r).respond (.failure k))
  | .stop f => .fault f

/-! ### What a step does around a command -/

/-- What is presented to the block next, and the state with it taken: `none` when nothing is. -/
def State.takeEvent (s : State) : Option (HostEvent × State) :=
  match s.pending with
  | [] => none
  | e :: rest => some (e, { s with pending := rest })

/-- The reset event: both units as after reset; "no response is pending and nothing is in flight"
(spec/70_reset_and_hazards.md R150), so nothing is answered. What the host was answered before and what it will present
later are the host's and stand (notes/assumptions/4.md). -/
def State.resetBlock (s : State) : State := { s with eg := .reset, av := .reset }

/-- An illegal command word: no state of any unit changes, and the response says so (spec/60_exceptions.md R125). -/
def State.illegalCommand (s : State) : State := s.respond (.failure .illegalCommand)

/-- A step with nothing presented: the block does nothing on its own (DEDUCED from spec/60_exceptions.md R129 and
spec/10_state.md R12; notes/assumptions/3.md). -/
def State.idle (s : State) : State := s

end Sys2Proof.Machine
end

