-- ==== Sys2Proof/Machine/Av1.lean ====
section
/-! DEFINITION. Unit AV, the AV1 bit reader (spec/41_av1_reader.md). It is written beside unit EG and not over it: the
two readers' bounds stay apart (spec/00_scope.md R3, spec/41_av1_reader.md R94). -/

namespace Sys2Proof.Machine

/-- The cursor one bit further: it rolls over from bit 7 of a byte to bit 0 of the next (R90). -/
def AvReader.advance (r : AvReader) : AvReader :=
  if r.bit.val = 7 then { r with byte := r.byte + 1, bit := 0 } else { r with bit := r.bit + 1 }

/-- `AV_NEXT()`: "the one place where unit AV consumes a bit" (R90). -/
def avNext (r : AvReader) : Except Fault (Option Bool × AvReader) :=
  if r.len ≤ r.byte then .ok (none, r)
  else match memRead r.buf r.len r.byte with
    | some b => .ok (some (b.getLsbD (7 - r.bit.val)), r.advance)
    | none => .error .memReadUndefined

/-- One bit, or `fail EXHAUSTED` (R90, R91). -/
def avBit (r : AvReader) : Attempt AvReader Bool := .ofNext (avNext r)

/-- `v <- (v << 1) | b` on 64 bits (R92). -/
def avAppend (v : BitVec 64) (b : Bool) : BitVec 64 := (v <<< 1) ||| (BitVec.ofBool b).setWidth 64

/-- The loop of R92: `n` bits, one at a time, onto `v`. -/
def avReadBits : Nat → BitVec 64 → AvReader → Attempt AvReader (BitVec 64)
  | 0, v, r => .done v r
  | n + 1, v, r => (avBit r).bind fun b r' => avReadBits n (avAppend v b) r'

/-- The width test, before any bit is consumed, and then the loop (R92, spec/60_exceptions.md R124). -/
def avReadField (n : Nat) (r : AvReader) : Attempt AvReader (BitVec 64) :=
  if avWidthInvalid n then .fail .invalidWidth r else avReadBits n 0 r

/-- `AV.RDBIT` (R91). -/
def execAvRdbit (s : State) : Host.Outcome State Fault Refusal :=
  s.finishAv ((avBit s.av).map fun b => (BitVec.ofBool b).setWidth 64)

/-- `AV.RDBITS n` (R92). -/
def execAvRdbits (n : Nat) (s : State) : Host.Outcome State Fault Refusal := s.finishAv (avReadField n s.av)

end Sys2Proof.Machine
end

