-- ==== Sys2Proof/Machine/ExpGolomb.lean ====
section
/-! DEFINITION. Unit EG, the Exp-Golomb bit reader (spec/40_expgolomb_reader.md). "The bit-by-bit procedure is the
definition" (R79), so the meanings are its loops; Safety.lean has the closed forms. -/

namespace Sys2Proof.Machine

/-- `EG_NEXT()`: "the one place where unit EG consumes a bit" (R70). -/
def egNext (r : EgReader) : Except Fault (Option Bool × EgReader) :=
  if 8 * r.len ≤ r.pos then .ok (none, r)
  else match streamBit r.buf r.len r.pos with
    | some b => .ok (some b, { r with pos := r.pos + 1 })
    | none => .error .memReadUndefined

/-- One bit, or `fail EXHAUSTED` (R70, R71). -/
def egBit (r : EgReader) : Attempt EgReader Bool := .ofNext (egNext r)

/-- `v <- (v << 1) | b` on 32 bits (R72). -/
def egAppend (v : BitVec 32) (b : Bool) : BitVec 32 := (v <<< 1) ||| (BitVec.ofBool b).setWidth 32

/-- The loop of R72: `n` bits, one at a time, onto `v`. -/
def egReadBits : Nat → BitVec 32 → EgReader → Attempt EgReader (BitVec 32)
  | 0, v, r => .done v r
  | n + 1, v, r => (egBit r).bind fun b r' => egReadBits n (egAppend v b) r'

/-- The width test, before any bit is consumed, and then the loop (R72, spec/60_exceptions.md R124). -/
def egReadField (n : Nat) (r : EgReader) : Attempt EgReader (BitVec 32) :=
  if egWidthInvalid n then .fail .invalidWidth r else egReadBits n 0 r

/-- The prefix loop of R73: `lz` zeros have been counted, and `more` further zeros make the count exceed the bound. The
bound is tested as each zero is counted, so the 32nd zero ends the command and stays consumed. -/
def egPrefix : Nat → Nat → EgReader → Attempt EgReader Nat
  | 0, _, r => .fail .malformedCode r
  | more + 1, lz, r => (egBit r).bind fun b r' => if b then .done lz r' else egPrefix more (lz + 1) r'

/-- The steps of `EG.RDUE` (R73): the prefix, the suffix of `lz` bits, and `(2^lz - 1) + suffix`. -/
def egDecodeUe (r : EgReader) : Attempt EgReader (BitVec 32) :=
  (egPrefix (Config.egPrefixMax + 1) 0 r).bind fun lz r' =>
    if lz = 0 then .done 0 r'
    else (egReadBits lz 0 r').map fun suffix => (BitVec.ofNat 32 (2 ^ lz) - 1) + suffix

/-- The signed number a `ue` value stands for (R76): `ue = 0 → 0`; odd `ue → +(ue+1)/2`; even `ue → -(ue/2)`. -/
def seOfUe (ue : Nat) : Int :=
  if ue = 0 then 0 else if ue % 2 = 1 then ((ue + 1) / 2 : Nat) else -((ue / 2 : Nat) : Int)

/-- The steps of `EG.RDSE` (R76); the result is the 32-bit two's-complement pattern of the signed number. -/
def egDecodeSe (r : EgReader) : Attempt EgReader (BitVec 32) :=
  (egDecodeUe r).map fun ue => BitVec.ofInt 32 (seOfUe ue.toNat)

/-- `EG.RDBIT` (R71). -/
def execEgRdbit (s : State) : Host.Outcome State Fault Refusal :=
  s.finishEg ((egBit s.eg).map fun b => (BitVec.ofBool b).setWidth 32)

/-- `EG.RDBITS n` (R72). -/
def execEgRdbits (n : Nat) (s : State) : Host.Outcome State Fault Refusal := s.finishEg (egReadField n s.eg)

/-- `EG.RDUE` (R73). -/
def execEgRdue (s : State) : Host.Outcome State Fault Refusal := s.finishEg (egDecodeUe s.eg)

/-- `EG.RDSE` (R76). -/
def execEgRdse (s : State) : Host.Outcome State Fault Refusal := s.finishEg (egDecodeSe s.eg)

/-- `EG.SKUE`: the steps of `EG.RDUE`, the value discarded (R77). -/
def execEgSkue (s : State) : Host.Outcome State Fault Refusal := s.finishEg ((egDecodeUe s.eg).map fun _ => 0)

/-- `EG.SKSE`: the steps of `EG.RDSE`, the value discarded (R78). -/
def execEgSkse (s : State) : Host.Outcome State Fault Refusal := s.finishEg ((egDecodeSe s.eg).map fun _ => 0)

end Sys2Proof.Machine
end

