-- ==== Sys2Proof/Machine/Lifecycle.lean ====
section
/-! DEFINITION. Construction of a reader (spec/43_lifecycle.md). There is no discard command: the next `INIT` of a unit
replaces its reader (R112). -/

namespace Sys2Proof.Machine

/-- An Exp-Golomb reader over the payload, at its first bit (R110). -/
def EgReader.construct (payload : List Byte) : EgReader :=
  { buf := Memory.ofBytes payload, len := payload.length, pos := 0 }

/-- An AV1 reader over the payload, at its first bit (R111). -/
def AvReader.construct (payload : List Byte) : AvReader :=
  { buf := Memory.ofBytes payload, len := payload.length, byte := 0, bit := 0 }

/-- `EG.INIT`: "`EG.INIT` always succeeds" (R110). -/
def execEgInit (payload : List Byte) (s : State) : Host.Outcome State Fault Refusal :=
  .next ((s.withEg (.construct payload)).respond (.success 0))

/-- `AV.INIT` (R111). -/
def execAvInit (payload : List Byte) (s : State) : Host.Outcome State Fault Refusal :=
  .next ((s.withAv (.construct payload)).respond (.success 0))

end Sys2Proof.Machine
end

