-- ==== Sys2Proof/Machine/Varuint.lean ====
section
/-! DEFINITION. Unit VU, the variable-length unsigned integer decoder (spec/42_varuint.md). It has no state and does
not use either reader's cursor (R102). -/

namespace Sys2Proof.Machine

/-- `acc | (zext_64(b[6:0]) << (7 * i))`, modulo `2^64` (R100). -/
def vuAccumulate (acc : BitVec 64) (i : Nat) (b : Byte) : BitVec 64 :=
  acc ||| ((b.extractLsb' 0 7).setWidth 64 <<< (7 * i))

/-- The loop of R100 from byte `i` on, `more` bytes of the bound left and the bytes from `i` on given: the value and the
bytes consumed, or nothing where the sequence does not terminate. -/
def vuScan : Nat → Nat → BitVec 64 → List Byte → Option (BitVec 64 × Nat)
  | 0, _, _, _ => none
  | _ + 1, _, _, [] => none
  | more + 1, i, acc, b :: rest =>
    if b.getLsbD 7 then vuScan more (i + 1) (vuAccumulate acc i b) rest
    else some (vuAccumulate acc i b, i + 1)

/-- The response of `VU.DEC` to the operand `s`: a function of the operand alone (R100, spec/10_state.md R17). -/
def vuResponse (s : List Byte) : Response :=
  match vuScan Config.vuScanMax 0 0 s with
  | some (v, c) => .successVar v c
  | none => .failure .unterminatedVaruint

/-- `VU.DEC` (R100): no state of any unit changes. -/
def execVuDec (s : List Byte) (st : State) : Host.Outcome State Fault Refusal := .next (st.respond (vuResponse s))

end Sys2Proof.Machine
end

