-- ==== Sys2Proof/Machine/Dispatch.lean ====
section
/-! DEFINITION. One arm per command (spec/30_encoding.md R52). -/

namespace Sys2Proof.Machine

def exec (i : Instr) (s : State) : Host.Outcome State Fault Refusal :=
  match i with
  | .egInit payload => Sys2Proof.Machine.execEgInit payload s
  | .egRdbit => Sys2Proof.Machine.execEgRdbit s
  | .egRdbits n => Sys2Proof.Machine.execEgRdbits n s
  | .egRdue => Sys2Proof.Machine.execEgRdue s
  | .egRdse => Sys2Proof.Machine.execEgRdse s
  | .egSkue => Sys2Proof.Machine.execEgSkue s
  | .egSkse => Sys2Proof.Machine.execEgSkse s
  | .avInit payload => Sys2Proof.Machine.execAvInit payload s
  | .avRdbit => Sys2Proof.Machine.execAvRdbit s
  | .avRdbits n => Sys2Proof.Machine.execAvRdbits n s
  | .vuDec bytes => Sys2Proof.Machine.execVuDec bytes s

end Sys2Proof.Machine
end

