-- ==== Sys2Proof/Machine/Step.lean ====
section
/-! DEFINITION. One step of the machine: "the host presents one command; the addressed unit performs the whole
operation; the unit returns one response" (spec/00_scope.md R7), or the platform resets the block
(spec/70_reset_and_hazards.md R150). -/

namespace Sys2Proof.Machine

/-- Takes what is presented next and does it: a reset; a legal command, by its meaning; an illegal word, which is
answered (spec/30_encoding.md R57). With nothing presented the state stands. -/
def step (s : State) : Host.Outcome State Fault Refusal :=
  match s.takeEvent with
  | none => .next s.idle
  | some (.reset, t) => .next t.resetBlock
  | some (.command w operand, t) =>
    match decode w operand with
    | .ok i => exec i t
    | .error _ => .next t.illegalCommand

/-- The state in which the next thing presented to the block is the instruction whose `nbits` bits are `w`: the host
issues its command word with the operand bytes above it (none, where the table gives 16 bits). A program is loaded from
outside the machine, as the list of commands the host issues (notes/assumptions/1.md). -/
def State.withFetchWord (s : State) (nbits w : Nat) : State :=
  { s with pending := .command (BitVec.ofNat 16 (w % 2 ^ nbits)) (tableOperand nbits w) :: s.pending }

end Sys2Proof.Machine
end

