-- ==== Sys2Proof/Safety.lean ====
section
/-! DEFINITION. The terms the statements use: the legal states of the block (spec/10_state.md R10, R13, R14), what it is
for a command to complete, and the closed forms the spec gives beside its loops (spec/20_memory.md R34,
spec/40_expgolomb_reader.md R74, spec/95_test_vectors.md part 4). No meaning of the machine uses this file. -/

namespace Sys2Proof.Machine

/-! ### Legal states -/

/-- The space holds exactly the bytes at indices 0 to `len - 1` (spec/20_memory.md R30). -/
abbrev Memory.Holds (m : Memory) (len : Nat) : Prop := m.map Prod.fst = List.range len

/-- The legal values of unit EG: the length is the payload's, and `0 <= EG.POS <= 8 * EG.LEN` (spec/10_state.md R10,
R13). -/
abbrev EgReader.Legal (r : EgReader) : Prop := Memory.Holds r.buf r.len ∧ r.pos ≤ 8 * r.len

/-- The legal values of unit AV: the length is the payload's, `AV.BYTE <= AV.LEN`, and `AV.BYTE = AV.LEN` implies
`AV.BIT = 0` (spec/10_state.md R10, R14). -/
abbrev AvReader.Legal (r : AvReader) : Prop :=
  Memory.Holds r.buf r.len ∧ r.byte ≤ r.len ∧ (r.byte = r.len → r.bit = 0)

/-- A response the block may return: `ok = 1` exactly when `kind = NONE`, and on failure `value` and `consumed` are 0
(spec/30_encoding.md R55, spec/60_exceptions.md R121). -/
abbrev Response.Legal (r : Response) : Prop :=
  (r.ok = true ↔ r.kind = .none) ∧ (r.ok = false → r.value = 0 ∧ r.consumed = 0)

/-- A legal state: both units, and every response returned so far. -/
abbrev State.Legal (s : State) : Prop := s.eg.Legal ∧ s.av.Legal ∧ ∀ r ∈ s.responses, r.Legal

/-! ### Legal for a block whose payloads hold at most `maxLen` bytes -/

/-- The host presents no payload of more than `maxLen` bytes (spec/30_encoding.md R54 (a)). -/
def HostEvent.Within (maxLen : Nat) : HostEvent → Prop
  | .command w operand => ∀ i, decode w operand = .ok i → i.wfWithin maxLen = true
  | .reset => True

/-- Both payloads fit, and so does every payload still to be presented. -/
def State.Within (maxLen : Nat) (s : State) : Prop :=
  s.eg.len ≤ maxLen ∧ s.av.len ≤ maxLen ∧ ∀ e ∈ s.pending, e.Within maxLen

/-! ### Closed forms -/

/-- The stream bit `i` of a payload, 0 or 1, where there is one (spec/20_memory.md R33). -/
def payloadBit (buf : Memory) (len i : Nat) : Bool := (streamBit buf len i).getD false

/-- `c_0 * 2^(n-1) + c_1 * 2^(n-2) + ... + c_(n-1) * 2^0` for the `n` stream bits from `p` on (spec/20_memory.md R34). -/
def bigEndianValue (buf : Memory) (len p n : Nat) : Nat :=
  ∑ k ∈ Finset.range n, (payloadBit buf len (p + k)).toNat * 2 ^ (n - 1 - k)

/-- The number of consecutive 0 stream bits from `p` on, counted no further than `most` bits
(spec/40_expgolomb_reader.md R74). -/
def zeroRun (buf : Memory) (len : Nat) : Nat → Nat → Nat
  | _, 0 => 0
  | p, most + 1 => if payloadBit buf len p then 0 else 1 + zeroRun buf len (p + 1) most

/-- The `z` of R74: counted no further than `min(32, T - p)` bits. -/
def EgReader.zeros (r : EgReader) : Nat := zeroRun r.buf r.len r.pos (min 32 (8 * r.len - r.pos))

/-- The kind `EG.RDUE` ends with (spec/40_expgolomb_reader.md R74, cases A to D). -/
def EgReader.ueKind (r : EgReader) : Kind :=
  if r.zeros = 32 then .malformedCode
  else if r.pos + 2 * r.zeros + 1 ≤ 8 * r.len then .none
  else .exhausted

/-- The position `EG.RDUE` rests at (R74, cases A to D). -/
def EgReader.ueRest (r : EgReader) : Nat :=
  if r.zeros = 32 then r.pos + 32
  else if r.pos + 2 * r.zeros + 1 ≤ 8 * r.len then r.pos + 2 * r.zeros + 1
  else 8 * r.len

/-- The number a successful `EG.RDUE` returns: `(2^z - 1) + S` (R74, case D). -/
def EgReader.ueValue (r : EgReader) : Nat :=
  (2 ^ r.zeros - 1) + bigEndianValue r.buf r.len (r.pos + r.zeros + 1) r.zeros

/-- The stream bits from the reader's position on begin with `bits`. -/
def EgReader.Spells (r : EgReader) (bits : List Bool) : Prop :=
  ∀ k, k < bits.length → streamBit r.buf r.len (r.pos + k) = bits[k]?

/-- The `n` low bits of `v`, most significant first. -/
def bigEndianBits (v : Nat) : Nat → List Bool
  | 0 => []
  | n + 1 => v.testBit n :: bigEndianBits v n

/-- The unsigned Exp-Golomb code of `v`: `lz = floor(log2(v + 1))` zeros, a one, and `v + 1 - 2^lz` in `lz` bits
(spec/95_test_vectors.md part 4, law 10). -/
def ueCode (v : Nat) : List Bool :=
  List.replicate (Nat.log2 (v + 1)) false ++ true :: bigEndianBits (v + 1 - 2 ^ Nat.log2 (v + 1)) (Nat.log2 (v + 1))

/-- The minimal base-128 encoding of `v` in at most `most` bytes: seven bits at a time, least significant group first,
bit 7 set on all but the last byte (spec/95_test_vectors.md part 4, law 15). -/
def minimalVarint : Nat → Nat → List Byte
  | 0, _ => []
  | most + 1, v =>
    if v < 128 then [BitVec.ofNat 8 v] else BitVec.ofNat 8 (128 + v % 128) :: minimalVarint most (v / 128)

/-! ### What a command may do -/

/-- The command is one of the two construction commands. -/
def isInit (i : Instr) : Bool := i.payload?.isSome

/-- The kinds a command may answer with: the column "reported by" of spec/60_exceptions.md R120. -/
def allowedKinds : Instr → List Kind
  | .egInit _ => [.none]
  | .egRdbit => [.none, .exhausted]
  | .egRdbits _ => [.none, .exhausted, .invalidWidth]
  | .egRdue => [.none, .exhausted, .malformedCode]
  | .egRdse => [.none, .exhausted, .malformedCode]
  | .egSkue => [.none, .exhausted, .malformedCode]
  | .egSkse => [.none, .exhausted, .malformedCode]
  | .avInit _ => [.none]
  | .avRdbit => [.none, .exhausted]
  | .avRdbits _ => [.none, .exhausted, .invalidWidth]
  | .vuDec _ => [.none, .unterminatedVaruint]

/-- The most bits a command consumes of its unit's payload (spec/10_state.md R22, spec/70_reset_and_hazards.md R159). -/
def mostBits : Instr → Nat
  | .egInit _ => 0
  | .egRdbit => 1
  | .egRdbits n => if n ≤ 32 then n else 0
  | .egRdue => 63
  | .egRdse => 63
  | .egSkue => 63
  | .egSkse => 63
  | .avInit _ => 0
  | .avRdbit => 1
  | .avRdbits n => if n ≤ 64 then n else 0
  | .vuDec _ => 0

/-! ### Runs -/

/-- The commands among what is presented that address unit EG. -/
def addressesEg (c : CmdWord × List Byte) : Bool :=
  match decode c.1 c.2 with
  | .ok i => i.unit == .eg
  | .error _ => false

/-- The commands among what is presented that address unit AV. -/
def addressesAv (c : CmdWord × List Byte) : Bool :=
  match decode c.1 c.2 with
  | .ok i => i.unit == .av
  | .error _ => false

/-- The state in which the host presents exactly these commands, in this order. -/
def State.issuing (s : State) (cs : List (CmdWord × List Byte)) : State :=
  { s with pending := cs.map fun c => HostEvent.command c.1 c.2 }

end Sys2Proof.Machine
end

