-- ==== Sys2Proof/Certificates/Slice0/Obligations.lean ====
section
/-! DEFINITION. The statements about the block. Each docstring names the rule or the sentence of spec/ it formalises.
"Legal" states are those of spec/10_state.md R10, R13 and R14 (Safety.lean); that the block never leaves them is a
statement of its own. A response is written `⟨ok, kind, value, consumed⟩` (spec/30_encoding.md R55). The command words
are the spec's decision D2, the zeros of a failed response its decision D5. -/

open Sys2Proof Sys2Proof.Machine

/-! ### Reset and the step -/

/-- R21: after reset every element of R10 is zero or empty, and the invariants of R13 and R14 hold (decision D15). -/
def Obligations.ResetHasEmptyReaders : Prop :=
  State.reset.eg.buf = [] ∧ State.reset.eg.len = 0 ∧ State.reset.eg.pos = 0 ∧
  State.reset.av.buf = [] ∧ State.reset.av.len = 0 ∧ State.reset.av.byte = 0 ∧ State.reset.av.bit = 0 ∧
  State.reset.eg.pos ≤ 8 * State.reset.eg.len ∧
  State.reset.av.byte ≤ State.reset.av.len ∧ State.reset.av.bit.val ≤ 7 ∧
  (State.reset.av.byte = State.reset.av.len → State.reset.av.bit = 0)

/-- The reset state is legal (with `EveryStepKeepsTheStateLegal`, so is every state a run reaches). -/
def Obligations.ResetStateIsLegal : Prop := State.reset.Legal

/-- 00_scope R7: a step takes the command presented next and performs it whole. The list of what is presented is the
model's own field (notes/assumptions/1.md). -/
def Obligations.StepRunsTheDecodedCommand : Prop :=
  ∀ (s : State) (w : CmdWord) (operand : List Byte) (rest : List HostEvent) (i : Instr),
    s.pending = .command w operand :: rest → decode w operand = .ok i →
    step s = exec i { s with pending := rest }

/-- R125: an illegal word changes no state of any unit and is answered `ILLEGAL_COMMAND`, code 7. What word is illegal is
`IllegalWordsAreThoseOfTheSevenClauses`. -/
def Obligations.IllegalWordIsAnsweredAndChangesNothing : Prop :=
  Kind.code .illegalCommand = 7 ∧
  ∀ (s : State) (w : CmdWord) (operand : List Byte) (rest : List HostEvent),
    s.pending = .command w operand :: rest → legalWord w = false →
    step s = .next { s with pending := rest, responses := s.responses ++ [⟨false, .illegalCommand, 0, 0⟩] }

/-- Model's choice (notes/assumptions/3.md): with nothing presented the state stands. It rests on 60_exceptions section
5: a response is returned "never spontaneously". -/
def Obligations.NothingHappensUnlessPresented : Prop :=
  ∀ s : State, s.pending = [] → step s = .next s

/-- 70_reset section 1: reset puts both units in the reset state and is a step of its own. That what was answered and
what will be presented stand is the model's choice (notes/assumptions/4.md). -/
def Obligations.ResetEventEmptiesBothReaders : Prop :=
  ∀ (s : State) (rest : List HostEvent), s.pending = .reset :: rest →
    step s = .next { eg := ⟨[], 0, 0⟩, av := ⟨[], 0, 0, 0⟩, pending := rest, responses := s.responses }

/-- 70_reset section 1: before any `INIT` each reader behaves as a reader over an empty payload, and no read changes any
state; `VU.DEC` and `INIT` work at once. -/
def Obligations.ReadsBeforeInitFindAnEmptyPayload : Prop :=
  ∀ s : State, s.eg = State.reset.eg → s.av = State.reset.av →
    (∀ i ∈ [Instr.egRdbit, .egRdue, .egRdse, .egSkue, .egSkse, .avRdbit],
      exec i s = .next { s with responses := s.responses ++ [⟨false, .exhausted, 0, 0⟩] }) ∧
    (∀ n, exec (.egRdbits n) s = .next { s with responses := s.responses ++
      [if n = 0 then ⟨true, .none, 0, 0⟩ else if 32 < n then ⟨false, .invalidWidth, 0, 0⟩
        else ⟨false, .exhausted, 0, 0⟩] }) ∧
    (∀ n, exec (.avRdbits n) s = .next { s with responses := s.responses ++
      [if n = 0 then ⟨true, .none, 0, 0⟩ else if 64 < n then ⟨false, .invalidWidth, 0, 0⟩
        else ⟨false, .exhausted, 0, 0⟩] }) ∧
    (∀ bytes, ∃ r, exec (.vuDec bytes) s = .next { s with responses := s.responses ++ [r] }) ∧
    (∀ payload, ∃ r, exec (.egInit payload) s =
      .next { s with eg := r, responses := s.responses ++ [⟨true, .none, 0, 0⟩] }) ∧
    (∀ payload, ∃ r, exec (.avInit payload) s =
      .next { s with av := r, responses := s.responses ++ [⟨true, .none, 0, 0⟩] })

/-! ### Encoding -/

/-- Decode and encode agree: every command that can be written is read back, with every operand. -/
def Obligations.DecodeOfEncodeIsTheCommand : Prop :=
  ∀ i : Instr, i.wf = true → decode (encodeWord i) (encodeOperand i) = .ok i

/-- The other direction: a legal word is the word of the command it decodes to, and every bit of it counts; the operand
given is the command's own, but for the commands that take none (model's choice, notes/assumptions/6.md: an operand
given with such a word is ignored). -/
def Obligations.EncodeOfDecodeIsTheWord : Prop :=
  ∀ (w : CmdWord) (operand : List Byte) (i : Instr), decode w operand = .ok i →
    i.wf = true ∧ encodeWord i = w ∧
    (encodeOperand i = operand ∨
      ((∀ payload, i ≠ .egInit payload) ∧ (∀ payload, i ≠ .avInit payload) ∧ ∀ bytes, i ≠ .vuDec bytes))

/-- Model's choice (notes/assumptions/6.md): whether a word is legal does not depend on the operand given with it, and an
operand given with a word that takes none changes nothing. -/
def Obligations.SuperfluousOperandIsIgnored : Prop :=
  ∀ (w : CmdWord) (operand : List Byte),
    (decode w operand).isOk = legalWord w ∧
    ∀ i : Instr, decode w [] = .ok i → (∀ payload, i ≠ .egInit payload) → (∀ payload, i ≠ .avInit payload) →
      (∀ bytes, i ≠ .vuDec bytes) → decode w operand = .ok i

/-- 30_encoding section 1: a word selects the row of the opcode map whose mnemonic is that of the command it decodes to,
and no other row; a word that selects no row is illegal (decision D2). That this holds with every operand, also one given
with a word that takes none, is the model's choice (notes/assumptions/6.md). -/
def Obligations.DecoderAgreesWithTheOpcodeMap : Prop :=
  ∀ (w : CmdWord) (operand : List Byte),
    match decode w operand with
    | .ok i => (opcodeRows.filter fun r => r.selects w).map OpcodeRow.mnemonic = [i.mnemonic]
    | .error _ => opcodeRows.filter (fun r => r.selects w) = []

/-- 30_encoding section 3: a word is illegal when any of seven clauses holds, with `UNIT`, `OP`, `RSV` and `N` read off
the number the word is (decision D2). -/
def Obligations.IllegalWordsAreThoseOfTheSevenClauses : Prop :=
  ∀ w : CmdWord,
    let unit := w.toNat / 2 ^ 14
    let op := w.toNat / 2 ^ 11 % 8
    let rsv := w.toNat / 2 ^ 8 % 8
    let n := w.toNat % 2 ^ 8
    legalWord w = false ↔
      unit = 3 ∨ (unit = 0 ∧ op = 0) ∨ (unit = 1 ∧ (op = 0 ∨ (4 ≤ op ∧ op ≤ 7))) ∨ (unit = 2 ∧ op ≠ 1) ∨
      rsv ≠ 0 ∨ (n ≠ 0 ∧ ¬ ((unit = 0 ∨ unit = 1) ∧ op = 3))

/-- 30_encoding section 3: 521 of the 65536 words are legal. -/
def Obligations.LegalWordsNumber521 : Prop :=
  ((List.range 65536).filter fun w => legalWord (BitVec.ofNat 16 w)).length = 521

/-- Words written out from the opcode map decode to the commands they stand for. -/
def Obligations.WrittenOutWordsDecode : Prop :=
  decode 0b0000100000000000#16 [0x40] = .ok (.egInit [0x40]) ∧
  decode 0b0001000000000000#16 [] = .ok .egRdbit ∧
  decode 0b0001100000100000#16 [] = .ok (.egRdbits 32) ∧
  decode 0b0010100000000000#16 [] = .ok .egRdse ∧
  decode 0b0101100001000000#16 [] = .ok (.avRdbits 64) ∧
  decode 0b1000100000000000#16 [0xAC, 0x02] = .ok (.vuDec [0xAC, 0x02])

/-! ### Construction -/

/-- 43_lifecycle, `EG.INIT`: in every state the command succeeds, the payload, its length and position 0 replace the old
reader, and nothing else changes. -/
def Obligations.EgInitConstructsAReader : Prop :=
  (∀ payload, decode 0x0800 payload = .ok (.egInit payload)) ∧
  ∀ (s : State) (payload : List Byte), ∃ buf : Memory,
    exec (.egInit payload) s = .next { s with
      eg := { buf := buf, len := payload.length, pos := 0 },
      responses := s.responses ++ [⟨true, .none, 0, 0⟩] } ∧
    ∀ a, Memory.read buf a = payload[a]?

/-- R111, `AV.INIT`: in every state the command succeeds, the payload, its length and position (0, 0) replace the old
reader, and nothing else changes. -/
def Obligations.AvInitConstructsAReader : Prop :=
  (∀ payload, decode 0x4800 payload = .ok (.avInit payload)) ∧
  ∀ (s : State) (payload : List Byte), ∃ buf : Memory,
    exec (.avInit payload) s = .next { s with
      av := { buf := buf, len := payload.length, byte := 0, bit := 0 },
      responses := s.responses ++ [⟨true, .none, 0, 0⟩] } ∧
    ∀ a, Memory.read buf a = payload[a]?

/-- 43_lifecycle: both construction commands always succeed. In every state and for every payload they complete; the new
reader is legal and stands at its first bit, and the other unit and what is presented later are as before. -/
def Obligations.InitCompletesInEveryState : Prop :=
  ∀ (s : State) (payload : List Byte),
    (∃ t, exec (.egInit payload) s = .next t ∧ t.eg.Legal ∧ t.eg.buf = Memory.ofBytes payload ∧
      t.eg.len = payload.length ∧ t.eg.pos = 0 ∧ t.av = s.av ∧ t.pending = s.pending ∧
      t.responses = s.responses ++ [⟨true, .none, 0, 0⟩]) ∧
    (∃ t, exec (.avInit payload) s = .next t ∧ t.av.Legal ∧ t.av.buf = Memory.ofBytes payload ∧
      t.av.len = payload.length ∧ t.av.byte = 0 ∧ t.av.bit = 0 ∧ t.eg = s.eg ∧ t.pending = s.pending ∧
      t.responses = s.responses ++ [⟨true, .none, 0, 0⟩])

/-- R33: bits are consumed most significant bit first, bytes in ascending index order, by both readers. -/
def Obligations.BitsAreConsumedMostSignificantFirst : Prop :=
  ∀ (payload : List Byte) (i : Nat) (h : i < 8 * payload.length),
    streamBit (Memory.ofBytes payload) payload.length i =
      some ((payload[i / 8]'(by omega)).getLsbD (7 - i % 8)) ∧
    (∀ s : State, s.eg = { buf := Memory.ofBytes payload, len := payload.length, pos := i } →
      exec .egRdbit s = .next { s with
        eg := { s.eg with pos := i + 1 },
        responses := s.responses ++
          [⟨true, .none, if (payload[i / 8]'(by omega)).getLsbD (7 - i % 8) then 1 else 0, 0⟩] }) ∧
    (∀ s : State, s.av = { buf := Memory.ofBytes payload, len := payload.length, byte := i / 8, bit := Fin.ofNat 8 i } →
      exec .avRdbit s = .next { s with
        av := { s.av with byte := (i + 1) / 8, bit := Fin.ofNat 8 (i + 1) },
        responses := s.responses ++
          [⟨true, .none, if (payload[i / 8]'(by omega)).getLsbD (7 - i % 8) then 1 else 0, 0⟩] })

/-! ### The Exp-Golomb reader -/

/-- R71, `EG.RDBIT`. -/
def Obligations.EgRdbitReadsTheNextBit : Prop :=
  decode 0x1000 [] = .ok .egRdbit ∧
  ∀ s : State, s.eg.Legal →
    (s.eg.pos = 8 * s.eg.len →
      exec .egRdbit s = .next { s with responses := s.responses ++ [⟨false, .exhausted, 0, 0⟩] }) ∧
    (s.eg.pos < 8 * s.eg.len → ∃ b : Bool, streamBit s.eg.buf s.eg.len s.eg.pos = some b ∧
      exec .egRdbit s = .next { s with
        eg := { s.eg with pos := s.eg.pos + 1 },
        responses := s.responses ++ [⟨true, .none, if b then 1 else 0, 0⟩] })

/-- R72, `EG.RDBITS n`, by its closed form: the bound 32 is the spec's decision D6. A failed read keeps what it
consumed. -/
def Obligations.EgRdbitsReadsABigEndianField : Prop :=
  (∀ n, n < 256 → decode (BitVec.ofNat 16 (0x1800 + n)) [] = .ok (.egRdbits n)) ∧
  ∀ (s : State) (n : Nat), s.eg.Legal →
    (32 < n →
      exec (.egRdbits n) s = .next { s with responses := s.responses ++ [⟨false, .invalidWidth, 0, 0⟩] }) ∧
    (n ≤ 32 → n ≤ 8 * s.eg.len - s.eg.pos →
      bigEndianValue s.eg.buf s.eg.len s.eg.pos n < 2 ^ n ∧
      exec (.egRdbits n) s = .next { s with
        eg := { s.eg with pos := s.eg.pos + n },
        responses := s.responses ++
          [⟨true, .none, BitVec.ofNat 64 (bigEndianValue s.eg.buf s.eg.len s.eg.pos n), 0⟩] }) ∧
    (n ≤ 32 → 8 * s.eg.len - s.eg.pos < n →
      exec (.egRdbits n) s = .next { s with
        eg := { s.eg with pos := 8 * s.eg.len },
        responses := s.responses ++ [⟨false, .exhausted, 0, 0⟩] })

/-- 40_expgolomb_reader section 3, the closed form of `EG.RDUE`: with `p` the position, `T` the total bit length and `z`
the zeros from `p` on counted up to `min(32, T - p)`, the four cases A to D. The resting place of case A is decision
D8. -/
def Obligations.EgRdueHasFourOutcomes : Prop :=
  decode 0x2000 [] = .ok .egRdue ∧
  ∀ s : State, s.eg.Legal →
    let p := s.eg.pos
    let T := 8 * s.eg.len
    let z := zeroRun s.eg.buf s.eg.len p (min 32 (T - p))
    let S := bigEndianValue s.eg.buf s.eg.len (p + z + 1) z
    z ≤ 32 ∧ p + z ≤ T ∧
    (z = 32 → exec .egRdue s = .next { s with
      eg := { s.eg with pos := p + 32 }, responses := s.responses ++ [⟨false, .malformedCode, 0, 0⟩] }) ∧
    (z < 32 → p + z = T → exec .egRdue s = .next { s with
      eg := { s.eg with pos := T }, responses := s.responses ++ [⟨false, .exhausted, 0, 0⟩] }) ∧
    (z < 32 → p + z < T → streamBit s.eg.buf s.eg.len (p + z) = some true) ∧
    (z < 32 → p + z < T → T < p + 2 * z + 1 → exec .egRdue s = .next { s with
      eg := { s.eg with pos := T }, responses := s.responses ++ [⟨false, .exhausted, 0, 0⟩] }) ∧
    (z < 32 → p + 2 * z + 1 ≤ T →
      (2 ^ z - 1) + S ≤ 2 ^ 32 - 2 ∧
      exec .egRdue s = .next { s with
        eg := { s.eg with pos := p + 2 * z + 1 },
        responses := s.responses ++ [⟨true, .none, BitVec.ofNat 64 ((2 ^ z - 1) + S), 0⟩] })

/-- 40_expgolomb_reader sections 3 and 4, `EG.RDSE` by the closed form of the unsigned code (`ueKind`, `ueRest`, `ueValue`
of Safety.lean, the cases of `EgRdueHasFourOutcomes`): its outcome, its value mapped to a signed number in 32-bit two's
complement (decision D9). -/
def Obligations.EgRdseMapsTheUnsignedCode : Prop :=
  decode 0x2800 [] = .ok .egRdse ∧
  ∀ s : State, s.eg.Legal →
    let ue := s.eg.ueValue
    let eg := { s.eg with pos := s.eg.ueRest }
    (s.eg.ueKind ≠ .none →
      exec .egRdse s = .next { s with eg := eg, responses := s.responses ++ [⟨false, s.eg.ueKind, 0, 0⟩] }) ∧
    (s.eg.ueKind = .none → ue = 0 →
      exec .egRdse s = .next { s with eg := eg, responses := s.responses ++ [⟨true, .none, 0, 0⟩] }) ∧
    (s.eg.ueKind = .none → ue % 2 = 1 →
      exec .egRdse s = .next { s with
        eg := eg, responses := s.responses ++ [⟨true, .none, BitVec.ofNat 64 ((ue + 1) / 2), 0⟩] }) ∧
    (s.eg.ueKind = .none → ue ≠ 0 → ue % 2 = 0 →
      exec .egRdse s = .next { s with
        eg := eg, responses := s.responses ++ [⟨true, .none, BitVec.ofNat 64 (2 ^ 32 - ue / 2), 0⟩] })

/-- 40_expgolomb_reader sections 3 and 5, `EG.SKUE` by the closed form of the unsigned code: its kind and its position,
the value 0 always (decision D10). -/
def Obligations.EgSkueSkipsTheUnsignedCode : Prop :=
  decode 0x3000 [] = .ok .egSkue ∧
  ∀ s : State, s.eg.Legal →
    exec .egSkue s = .next { s with
      eg := { s.eg with pos := s.eg.ueRest },
      responses := s.responses ++ [⟨s.eg.ueKind == .none, s.eg.ueKind, 0, 0⟩] }

/-- 40_expgolomb_reader sections 3 and 5, `EG.SKSE`: the same effect and response as `EG.SKUE` on every state, and so the
closed form of the unsigned code with the value 0. -/
def Obligations.EgSkseSkipsTheSignedCode : Prop :=
  decode 0x3800 [] = .ok .egSkse ∧
  ∀ s : State,
    (s.eg.Legal → exec .egSkse s = .next { s with
      eg := { s.eg with pos := s.eg.ueRest },
      responses := s.responses ++ [⟨s.eg.ueKind == .none, s.eg.ueKind, 0, 0⟩] }) ∧
    exec .egSkse s = exec .egSkue s

/-- R76, `EG.RDSE` beside `EG.RDUE`, in every state: where the unsigned command answers `r` and leaves the state `t`, the
signed one leaves the same state and answers the same, but for the value of a success: with `ue` the unsigned value, 0 for
0, `(ue + 1) / 2` for odd `ue`, and for other even `ue` the 32-bit two's complement of `-(ue / 2)` (decision D9). -/
def Obligations.EgRdseEndsAsEgRdueDoes : Prop :=
  decode 0x2800 [] = .ok .egRdse ∧
  ∀ (s t : State) (r : Response), exec .egRdue s = .next t → t.responses = s.responses ++ [r] →
    let ue := r.value.toNat
    let se := if ue = 0 then 0 else if ue % 2 = 1 then (ue + 1) / 2 else 2 ^ 32 - ue / 2
    exec .egRdse s = .next { t with
      responses := s.responses ++ [if r.ok then { r with value := BitVec.ofNat 64 se } else r] }

/-- R77, `EG.SKUE` beside `EG.RDUE`, in every state: the same state and the same response, but for the value, 0 always
(decision D10). -/
def Obligations.EgSkueEndsAsEgRdueDoes : Prop :=
  decode 0x3000 [] = .ok .egSkue ∧
  ∀ (s t : State) (r : Response), exec .egRdue s = .next t → t.responses = s.responses ++ [r] →
    exec .egSkue s = .next { t with responses := s.responses ++ [{ r with value := 0 }] }

/-- 40_expgolomb_reader section 3: a successful `EG.RDUE` consumes `2 * lz + 1` bits with `lz <= 31`, and its value lies
between `2^lz - 1` and `2^(lz+1) - 2`; a malformed code has consumed 32 bits. In every state. -/
def Obligations.EgRdueValueMatchesItsLength : Prop :=
  ∀ s t : State, exec .egRdue s = .next t →
    (∃ lz r, lz ≤ 31 ∧ t.responses = s.responses ++ [r] ∧ r.kind = .none ∧ t.eg.pos = s.eg.pos + 2 * lz + 1 ∧
      2 ^ lz - 1 ≤ r.value.toNat ∧ r.value.toNat ≤ 2 ^ (lz + 1) - 2) ∨
    (∃ r, t.responses = s.responses ++ [r] ∧ r.kind = .malformedCode ∧ t.eg.pos = s.eg.pos + 32) ∨
    (∃ r, t.responses = s.responses ++ [r] ∧ r.kind = .exhausted ∧ 8 * t.eg.len ≤ t.eg.pos)

/-- 95_test_vectors part 4, law 10: where the code of `v` stands at the position, `EG.RDUE` returns `v` and steps over
exactly that code. -/
def Obligations.EgRdueDecodesTheCodeOfEveryValue : Prop :=
  ∀ (s : State) (v : Nat), v ≤ 2 ^ 32 - 2 → s.eg.Spells (ueCode v) →
    exec .egRdue s = .next { s with
      eg := { s.eg with pos := s.eg.pos + (ueCode v).length },
      responses := s.responses ++ [⟨true, .none, BitVec.ofNat 64 v, 0⟩] }

/-- 95_test_vectors part 4, law 11: where the code of `2 * se - 1` (for `se > 0`) or `-2 * se` (for `se <= 0`) stands at
the position, `EG.RDSE` returns `se`, for every `se` of the range. -/
def Obligations.EgRdseDecodesTheCodeOfEverySignedValue : Prop :=
  ∀ (s : State) (se : Int), -(2 ^ 31 - 1) ≤ se → se ≤ 2 ^ 31 - 1 →
    let ue := if 0 < se then 2 * se.toNat - 1 else 2 * (-se).toNat
    s.eg.Spells (ueCode ue) →
    ∃ v : BitVec 32, v.toInt = se ∧
      exec .egRdse s = .next { s with
        eg := { s.eg with pos := s.eg.pos + (ueCode ue).length },
        responses := s.responses ++ [⟨true, .none, v.setWidth 64, 0⟩] }

/-- 95_test_vectors part 4, law 6: `RDBIT` equals `RDBITS 1` in response and state change, for both readers, in every
state. -/
def Obligations.RdbitIsRdbitsOfOne : Prop :=
  ∀ s : State, exec .egRdbit s = exec (.egRdbits 1) s ∧ exec .avRdbit s = exec (.avRdbits 1) s

/-- 95_test_vectors part 4, law 5, for `EG.RDBITS`: reading `a` bits and then `b` bits is reading `a + b` bits. -/
def Obligations.EgRdbitsSplits : Prop :=
  ∀ (s : State) (a b : Nat), s.eg.Legal → a + b ≤ 32 → a + b ≤ 8 * s.eg.len - s.eg.pos →
    ∃ (t u w : State) (va vb : Nat),
      exec (.egRdbits a) s = .next t ∧ t.responses = s.responses ++ [⟨true, .none, BitVec.ofNat 64 va, 0⟩] ∧
      exec (.egRdbits b) t = .next u ∧ u.responses = t.responses ++ [⟨true, .none, BitVec.ofNat 64 vb, 0⟩] ∧
      exec (.egRdbits (a + b)) s = .next w ∧
      w.responses = s.responses ++ [⟨true, .none, BitVec.ofNat 64 (va * 2 ^ b + vb), 0⟩] ∧
      va < 2 ^ a ∧ vb < 2 ^ b ∧ u.eg = w.eg ∧ u.av = w.av

/-! ### The AV1 reader -/

/-- R91, `AV.RDBIT`: the (byte, bit) pair rolls over byte to byte. -/
def Obligations.AvRdbitReadsTheNextBit : Prop :=
  decode 0x5000 [] = .ok .avRdbit ∧
  ∀ s : State, s.av.Legal →
    (s.av.byte = s.av.len →
      exec .avRdbit s = .next { s with responses := s.responses ++ [⟨false, .exhausted, 0, 0⟩] }) ∧
    (s.av.byte < s.av.len → ∃ b : Byte, Memory.read s.av.buf s.av.byte = some b ∧
      exec .avRdbit s = .next { s with
        av := if s.av.bit = 7 then { s.av with byte := s.av.byte + 1, bit := 0 }
              else { s.av with bit := s.av.bit + 1 },
        responses := s.responses ++ [⟨true, .none, if b.getLsbD (7 - s.av.bit.val) then 1 else 0, 0⟩] })

/-- R92, `AV.RDBITS n`, by its closed form over the global index `AV_POS`; the pair is its quotient and remainder by 8.
A width above 64 consumes nothing, a failed read keeps what it consumed. -/
def Obligations.AvRdbitsReadsABigEndianField : Prop :=
  (∀ n, n < 256 → decode (BitVec.ofNat 16 (0x5800 + n)) [] = .ok (.avRdbits n)) ∧
  ∀ (s : State) (n : Nat), s.av.Legal →
    let p := 8 * s.av.byte + s.av.bit.val
    (64 < n →
      exec (.avRdbits n) s = .next { s with responses := s.responses ++ [⟨false, .invalidWidth, 0, 0⟩] }) ∧
    (n ≤ 64 → n ≤ 8 * s.av.len - p →
      bigEndianValue s.av.buf s.av.len p n < 2 ^ n ∧
      exec (.avRdbits n) s = .next { s with
        av := { s.av with byte := (p + n) / 8, bit := Fin.ofNat 8 (p + n) },
        responses := s.responses ++ [⟨true, .none, BitVec.ofNat 64 (bigEndianValue s.av.buf s.av.len p n), 0⟩] }) ∧
    (n ≤ 64 → 8 * s.av.len - p < n →
      exec (.avRdbits n) s = .next { s with
        av := { s.av with byte := s.av.len, bit := 0 },
        responses := s.responses ++ [⟨false, .exhausted, 0, 0⟩] })

/-- 10_state section 3 and 41_av1_reader section 1: in terms of the global index the AV bit step is the EG step: fail
without change at `8 * AV.LEN`, otherwise return that stream bit and add 1. -/
def Obligations.AvStepIsTheGlobalIndexStep : Prop :=
  ∀ r : AvReader, r.Legal →
    r.globalPos ≤ 8 * r.len ∧ r.byte = r.globalPos / 8 ∧ r.bit.val = r.globalPos % 8 ∧
    (r.globalPos = 8 * r.len → avNext r = .ok (none, r)) ∧
    (r.globalPos < 8 * r.len → ∃ b r', avNext r = .ok (some b, r') ∧
      streamBit r.buf r.len r.globalPos = some b ∧ r'.globalPos = r.globalPos + 1 ∧
      r'.buf = r.buf ∧ r'.len = r.len)

/-- 95_test_vectors part 4, law 5, for `AV.RDBITS`. -/
def Obligations.AvRdbitsSplits : Prop :=
  ∀ (s : State) (a b : Nat), s.av.Legal → a + b ≤ 64 → a + b ≤ 8 * s.av.len - s.av.globalPos →
    ∃ (t u w : State) (va vb : Nat),
      exec (.avRdbits a) s = .next t ∧ t.responses = s.responses ++ [⟨true, .none, BitVec.ofNat 64 va, 0⟩] ∧
      exec (.avRdbits b) t = .next u ∧ u.responses = t.responses ++ [⟨true, .none, BitVec.ofNat 64 vb, 0⟩] ∧
      exec (.avRdbits (a + b)) s = .next w ∧
      w.responses = s.responses ++ [⟨true, .none, BitVec.ofNat 64 (va * 2 ^ b + vb), 0⟩] ∧
      va < 2 ^ a ∧ vb < 2 ^ b ∧ u.av = w.av ∧ u.eg = w.eg

/-- 95_test_vectors part 4, law 13: over the same payload and the same global position the two readers give the same
response and the same advance, for `RDBIT` and for `RDBITS n` with `n <= 32`. -/
def Obligations.TheTwoReadersAgree : Prop :=
  ∀ s : State, s.eg.Legal → s.av.Legal → s.av.buf = s.eg.buf → s.av.len = s.eg.len → s.av.globalPos = s.eg.pos →
    (∃ t u r, exec .egRdbit s = .next t ∧ exec .avRdbit s = .next u ∧ t.responses = s.responses ++ [r] ∧
      u.responses = s.responses ++ [r] ∧ u.av.globalPos = t.eg.pos) ∧
    (∀ n, n ≤ 32 → ∃ t u r, exec (.egRdbits n) s = .next t ∧ exec (.avRdbits n) s = .next u ∧
      t.responses = s.responses ++ [r] ∧ u.responses = s.responses ++ [r] ∧ u.av.globalPos = t.eg.pos)

/-! ### The variable-length decoder -/

/-- 42_varuint, the closed form of `VU.DEC`: with `t` the least index below `min(|s|, 10)` whose byte has its high bit
clear, the value is the sum of the 7-bit groups modulo `2^64` (decision D11) and `t + 1` bytes are consumed; with no such
index the command fails. No unit's state changes. -/
def Obligations.VuDecSumsTheGroups : Prop :=
  (∀ bytes, decode 0x8800 bytes = .ok (.vuDec bytes)) ∧
  ∀ (st : State) (s : List Byte),
    ((∀ i, i < min s.length 10 → 128 ≤ (s.getD i 0).toNat) →
      exec (.vuDec s) st = .next { st with
        responses := st.responses ++ [⟨false, .unterminatedVaruint, 0, 0⟩] }) ∧
    (∀ t, t < min s.length 10 → (s.getD t 0).toNat < 128 → (∀ i, i < t → 128 ≤ (s.getD i 0).toNat) →
      exec (.vuDec s) st = .next { st with
        responses := st.responses ++
          [⟨true, .none, BitVec.ofNat 64 (∑ i ∈ Finset.range (t + 1), (s.getD i 0).toNat % 128 * 2 ^ (7 * i)),
            BitVec.ofNat 4 (t + 1)⟩] })

/-- 95_test_vectors part 4, law 14: a success consumed 1 to 10 bytes of the operand, the last of them has its high bit
clear and the earlier ones have it set, nothing after them matters, and up to nine bytes give a value below
`2^(7 * consumed)`. -/
def Obligations.VuDecSuccessReadsItsBytesOnly : Prop :=
  ∀ (st t : State) (s : List Byte) (r : Response), exec (.vuDec s) st = .next t → t.responses = st.responses ++ [r] →
    r.ok = true →
    let c := r.consumed.toNat
    1 ≤ c ∧ c ≤ 10 ∧ c ≤ s.length ∧ (s.getD (c - 1) 0).getLsbD 7 = false ∧
    (∀ i, i < c - 1 → (s.getD i 0).getLsbD 7 = true) ∧
    (∀ more, exec (.vuDec (s.take c ++ more)) st = .next t) ∧
    (c ≤ 9 → r.value.toNat < 2 ^ (7 * c))

/-- 95_test_vectors part 4, law 15: the minimal encoding of every `v` below `2^64` has at most ten bytes and decodes to
`v`, consuming exactly them, whatever follows. -/
def Obligations.VuDecDecodesEveryMinimalEncoding : Prop :=
  ∀ (st : State) (v : Nat) (more : List Byte), v < 2 ^ 64 →
    (minimalVarint 10 v).length ≤ 10 ∧
    exec (.vuDec (minimalVarint 10 v ++ more)) st = .next { st with
      responses := st.responses ++
        [⟨true, .none, BitVec.ofNat 64 v, BitVec.ofNat 4 (minimalVarint 10 v).length⟩] }

/-- 30_encoding section 1: the port-level form of the operand, ten byte lanes and a count, gives the same result; lanes
at or above the count do not matter, and counts 11 to 15 mean 10. -/
def Obligations.VuDecWindowIsEquivalent : Prop :=
  ∀ (st : State) (s : List Byte) (v : VuWindow),
    (∀ i (h : i < 10), i < s.length → v.lanes[i] = s.getD i 0) →
    (v.avail.toNat = min s.length 10 ∨ (10 ≤ s.length ∧ 10 ≤ v.avail.toNat)) →
    exec (.vuDec v.bytes) st = exec (.vuDec s) st

/-! ### Failures and responses -/

/-- R122: every command is total: for every state and every operand it returns exactly one response and the next state is
defined; illegal words as well. -/
def Obligations.EveryCommandIsAnsweredOnce : Prop :=
  ∀ (s : State) (w : CmdWord) (operand : List Byte) (rest : List HostEvent), s.Legal →
    s.pending = .command w operand :: rest →
    ∃ t r, step s = .next t ∧ t.responses = s.responses ++ [r] ∧ t.pending = rest

/-- 60_exceptions section 1, the column "reported by" of the table of kinds (Safety.lean writes it out): no command
answers with a kind that the table does not give it. -/
def Obligations.CommandsReportOnlyTheirKinds : Prop :=
  ∀ (i : Instr) (s t : State), exec i s = .next t →
    ∃ r, t.responses = s.responses ++ [r] ∧ r.kind ∈ allowedKinds i

/-- 60_exceptions section 1: the codes of the kinds, 5 and 6 never produced. -/
def Obligations.KindCodesAreThoseOfTheTable : Prop :=
  Kind.code .none = 0 ∧ Kind.code .exhausted = 1 ∧ Kind.code .malformedCode = 2 ∧ Kind.code .invalidWidth = 3 ∧
  Kind.code .unterminatedVaruint = 4 ∧ Kind.code .illegalCommand = 7 ∧ ∀ k : Kind, k.code ≠ 5 ∧ k.code ≠ 6

/-- 30_encoding section 2, the table of the response: `ok = 1` exactly when `kind = NONE`; 0 on every failure and after
the skips and `INIT`; EG holds `value[63:32]` at 0; `consumed` is 1 to 10 for a successful `VU.DEC` and 0 in every other
response. -/
def Obligations.ResponseFieldsHoldTheirRanges : Prop :=
  ∀ (i : Instr) (s t : State), exec i s = .next t →
    ∃ r, t.responses = s.responses ++ [r] ∧ (r.ok = true ↔ r.kind = .none) ∧
      (r.ok = false → r.value = 0 ∧ r.consumed = 0) ∧
      (i = .egSkue ∨ i = .egSkse ∨ isInit i = true → r.value = 0) ∧
      (i.unit = .eg → r.value.toNat < 2 ^ 32) ∧
      (i.unit ≠ .vu → r.consumed = 0) ∧
      (i.unit = .vu → r.ok = true → 1 ≤ r.consumed.toNat ∧ r.consumed.toNat ≤ 10)

/-- 60_exceptions section 2: every `EXHAUSTED` failure leaves the reader at the end of its payload. -/
def Obligations.ExhaustedReaderRestsAtTheEnd : Prop :=
  ∀ (i : Instr) (s t : State) (r : Response), s.Legal → exec i s = .next t → t.responses = s.responses ++ [r] →
    r.kind = .exhausted →
    (i.unit = .eg → t.eg.pos = 8 * t.eg.len) ∧ (i.unit = .av → t.av.byte = t.av.len ∧ t.av.bit = 0)

/-- 60_exceptions section 4: at the end of the payload every command that needs a bit fails with `EXHAUSTED` and changes
nothing, again and again. -/
def Obligations.ExhaustionIsIdempotent : Prop :=
  ∀ s : State,
    (8 * s.eg.len ≤ s.eg.pos → ∀ i, i ∈ [Instr.egRdbit, .egRdue, .egRdse, .egSkue, .egSkse] ∨
        (∃ n, i = .egRdbits n ∧ 1 ≤ n ∧ n ≤ 32) →
      exec i s = .next { s with responses := s.responses ++ [⟨false, .exhausted, 0, 0⟩] }) ∧
    (s.av.len ≤ s.av.byte → ∀ i, i = Instr.avRdbit ∨ (∃ n, i = .avRdbits n ∧ 1 ≤ n ∧ n ≤ 64) →
      exec i s = .next { s with responses := s.responses ++ [⟨false, .exhausted, 0, 0⟩] })

/-! ### What a command leaves alone -/

/-- 20_memory section 1: no unit writes memory: every byte of a payload reads after a command as it read before, and the length is the
same, but for the `INIT` of that reader. -/
def Obligations.OnlyInitChangesAPayload : Prop :=
  ∀ (i : Instr) (s t : State), exec i s = .next t →
    ((∀ payload, i ≠ .egInit payload) →
      t.eg.len = s.eg.len ∧ ∀ a, Memory.read t.eg.buf a = Memory.read s.eg.buf a) ∧
    ((∀ payload, i ≠ .avInit payload) →
      t.av.len = s.av.len ∧ ∀ a, Memory.read t.av.buf a = Memory.read s.av.buf a)

/-- 10_state section 5, the table of which command writes which state: a command leaves the other units as they were,
`VU.DEC` leaves both, a read command moves only its position, and no command touches what is presented later. -/
def Obligations.CommandsWriteOnlyTheirUnit : Prop :=
  ∀ (i : Instr) (s t : State), exec i s = .next t →
    (i.unit ≠ .eg → t.eg = s.eg) ∧ (i.unit ≠ .av → t.av = s.av) ∧ t.pending = s.pending ∧
    (isInit i = false → t.eg = { s.eg with pos := t.eg.pos } ∧
      t.av = { s.av with byte := t.av.byte, bit := t.av.bit })

/-- 00_scope section 1 and 10_state section 4: a command's effect on its unit and its response depend on that unit alone:
not on another unit, not on what was answered before (no failure is latched), not on what is presented later. -/
def Obligations.CommandsReadOnlyTheirUnit : Prop :=
  ∀ (i : Instr) (s s' t : State), exec i s = .next t →
    (i.unit = .eg → s'.eg = s.eg) → (i.unit = .av → s'.av = s.av) →
    ∃ t' r, exec i s' = .next t' ∧ t.responses = s.responses ++ [r] ∧ t'.responses = s'.responses ++ [r] ∧
      (i.unit = .eg → t'.eg = t.eg) ∧ (i.unit = .av → t'.av = t.av)

/-- 00_scope section 1: two commands addressed to different units give the same two responses and the same final state in
either order. -/
def Obligations.CommandsToDifferentUnitsCommute : Prop :=
  ∀ (i j : Instr) (s t u : State), i.unit ≠ j.unit → exec i s = .next t → exec j t = .next u →
    ∃ t' u' q r, exec j s = .next t' ∧ exec i t' = .next u' ∧
      u.responses = s.responses ++ [q, r] ∧ u'.responses = s.responses ++ [r, q] ∧
      u'.eg = u.eg ∧ u'.av = u.av ∧ u'.pending = u.pending

/-- 20_memory section 5: the responses of a unit and its state are a function of the commands sent to it: issuing EG's
commands alone, or AV's alone, gives that unit the same responses and the same final state as issuing all of them. The
runs and the lists of commands and responses are the model's own (notes/assumptions/1.md). -/
def Obligations.InterleavingIsInvisibleToAUnit : Prop :=
  ∀ (s : State) (cs : List (CmdWord × List Byte)), s.Legal →
    ∃ (t u v : State) (rs : List Response),
      Host.Core.run Sys2Proof.core cs.length (s.issuing cs) = .next t ∧
      t.responses = s.responses ++ rs ∧ rs.length = cs.length ∧
      Host.Core.run Sys2Proof.core (cs.filter addressesEg).length (s.issuing (cs.filter addressesEg)) = .next u ∧
      u.eg = t.eg ∧
      u.responses = s.responses ++ ((cs.zip rs).filter fun c => addressesEg c.1).map Prod.snd ∧
      Host.Core.run Sys2Proof.core (cs.filter addressesAv).length (s.issuing (cs.filter addressesAv)) = .next v ∧
      v.av = t.av ∧
      v.responses = s.responses ++ ((cs.zip rs).filter fun c => addressesAv c.1).map Prod.snd

/-- 10_state section 3: a position never decreases but at the `INIT` of its reader, which sets it to 0. In every state. -/
def Obligations.PositionsNeverDecrease : Prop :=
  ∀ (i : Instr) (s t : State), exec i s = .next t →
    ((∀ payload, i ≠ .egInit payload) → s.eg.pos ≤ t.eg.pos) ∧
    ((∀ payload, i ≠ .avInit payload) → s.av.globalPos ≤ t.av.globalPos) ∧
    (∀ payload, i = .egInit payload → t.eg.pos = 0) ∧
    (∀ payload, i = .avInit payload → t.av.globalPos = 0)

/-- 10_state section 5 and 70_reset section 4: a read command consumes at most as many bits as its bound: 1, `n`, or 63;
and a failure for its width consumes none. In every state. -/
def Obligations.CommandsConsumeBoundedBits : Prop :=
  ∀ (i : Instr) (s t : State), exec i s = .next t → isInit i = false →
    (i.unit = .eg → t.eg.pos ≤ s.eg.pos + mostBits i) ∧
    (i.unit = .av → t.av.globalPos ≤ s.av.globalPos + mostBits i)

/-! ### Invariants -/

/-- 10_state sections 1 and 3: the invariants of both readers are true after every command, after every reset and after
every illegal word; 30_encoding section 2 and 60_exceptions section 1: every response returned keeps `ok` and `kind` in
step, with zeros on failure. That the responses returned are kept is the model's choice (notes/assumptions/2.md). -/
def Obligations.EveryStepKeepsTheStateLegal : Prop :=
  ∀ s t : State, s.Legal → step s = .next t → t.Legal

/-- 60_exceptions section 1: nothing in a legal state stops the block: no fault, no refusal. -/
def Obligations.NoStepStopsInALegalState : Prop :=
  ∀ s : State, s.Legal → ∃ t, step s = .next t

/-- 00_scope section 4 and 10_state section 2, for every value of the open parameter `MAXLEN`: where the host presents no
payload of more than `MAXLEN` bytes, no position or length ever outgrows its register, and the widths are the least that
do it. The step gives back all it needs: a legal state within `MAXLEN`. -/
def Obligations.NoRegisterOutgrowsItsWidth : Prop :=
  (∀ maxLen w, (8 * maxLen < 2 ^ w ↔ Config.posWidth maxLen ≤ w) ∧ (maxLen < 2 ^ w ↔ Config.byteWidth maxLen ≤ w)) ∧
  ∀ (maxLen : Nat) (s t : State), s.Legal → s.Within maxLen → step s = .next t →
    t.Legal ∧ t.Within maxLen ∧ t.eg.pos < 2 ^ Config.posWidth maxLen ∧ t.eg.len < 2 ^ Config.byteWidth maxLen ∧
    t.av.len < 2 ^ Config.byteWidth maxLen ∧ t.av.byte < 2 ^ Config.byteWidth maxLen
end

