-- ==== Sys2Proof/Laws/Memory.lean ====
section
/-! SUPPORT. What the operations over a payload's memory do: constructing it from a byte sequence keeps the canonical
form and reads back the sequence, and a payload that holds its length has a byte and a stream bit at every index below
it. -/

namespace Sys2Proof.Machine

theorem Memory.read_nil (k : Nat) : Memory.read [] k = none := rfl

theorem Memory.read_cons (a : Nat) (b : Byte) (m : Memory) (k : Nat) :
    Memory.read ((a, b) :: m) k = if k = a then some b else Memory.read m k := by
  rw [Memory.read, List.lookup_cons]
  by_cases h : k = a
  · simp [h]
  · rw [if_neg h, beq_false_of_ne h]
    rfl

theorem Memory.read_ofBytesFrom (a : Nat) (p : List Byte) (k : Nat) :
    Memory.read (Memory.ofBytesFrom a p) k = if a ≤ k then p[k - a]? else none := by
  induction p generalizing a with
  | nil => simp [Memory.ofBytesFrom, Memory.read_nil]
  | cons b bs ih =>
    rw [Memory.ofBytesFrom, Memory.read_cons, ih]
    rcases Nat.lt_trichotomy k a with h | rfl | h
    · rw [if_neg (by omega), if_neg (by omega), if_neg (by omega)]
    · simp
    · obtain ⟨d, rfl⟩ : ∃ d, k = a + 1 + d := ⟨k - (a + 1), by omega⟩
      rw [if_neg (by omega), if_pos (by omega), if_pos (by omega),
        show a + 1 + d - (a + 1) = d by omega, show a + 1 + d - a = d + 1 by omega, List.getElem?_cons_succ]

/-- The space of a byte sequence reads as the sequence: a byte at each index below its length, and nothing else. -/
@[simp] theorem Memory.read_ofBytes (p : List Byte) (a : Nat) : Memory.read (Memory.ofBytes p) a = p[a]? := by
  simp [Memory.ofBytes, Memory.read_ofBytesFrom]

theorem Memory.fst_ofBytesFrom (a : Nat) (p : List Byte) :
    (Memory.ofBytesFrom a p).map Prod.fst = List.range' a p.length := by
  induction p generalizing a with
  | nil => rfl
  | cons b bs ih => rw [Memory.ofBytesFrom, List.map_cons, ih, List.length_cons, List.range'_succ]

theorem Memory.holds_ofBytes (p : List Byte) : Memory.Holds (Memory.ofBytes p) p.length := by
  rw [Memory.Holds, Memory.ofBytes, Memory.fst_ofBytesFrom, List.range_eq_range']

/-- A payload that holds exactly its indices is in the canonical form. -/
theorem Memory.wf_of_holds {m : Memory} {len : Nat} (h : Memory.Holds m len) : Memory.wf m = true := by
  have : (m.map Prod.fst).Pairwise (· < ·) := h ▸ List.pairwise_lt_range
  exact decide_eq_true (List.pairwise_map.1 this)

/-- Constructing a payload, the one operation that makes a memory, gives the canonical form. -/
theorem Memory.ofBytes_wf (p : List Byte) : Memory.wf (Memory.ofBytes p) = true :=
  Memory.wf_of_holds (Memory.holds_ofBytes p)

theorem Memory.reset_wf : Memory.wf State.reset.eg.buf = true ∧ Memory.wf State.reset.av.buf = true := by decide

theorem Memory.read_isSome_of_mem {m : Memory} {a : Nat} (h : a ∈ m.map Prod.fst) : ∃ b, Memory.read m a = some b := by
  induction m with
  | nil => simp at h
  | cons c m ih =>
    obtain ⟨k, b⟩ := c
    rw [Memory.read_cons]
    by_cases hk : a = k
    · exact ⟨b, if_pos hk⟩
    · rw [if_neg hk]
      exact ih (by simpa [hk] using h)

theorem Memory.Holds.read_isSome {m : Memory} {len a : Nat} (h : Memory.Holds m len) (ha : a < len) :
    ∃ b, Memory.read m a = some b :=
  Memory.read_isSome_of_mem (by rw [h]; simpa using ha)

/-! ### Stream bits -/

theorem streamBit_ofBytes (p : List Byte) (i : Nat) :
    streamBit (Memory.ofBytes p) p.length i = (p[i / 8]?).map (·.getLsbD (7 - i % 8)) := by
  rw [streamBit, memRead, Memory.read_ofBytes]
  split
  · rfl
  · rw [List.getElem?_eq_none (by omega)]

/-- No stream bit stands at or past the end. -/
theorem streamBit_none {buf : Memory} {len i : Nat} (h : 8 * len ≤ i) : streamBit buf len i = none := by
  rw [streamBit, memRead, if_neg (by omega)]
  rfl

theorem streamBit_lt {buf : Memory} {len i : Nat} {b : Bool} (h : streamBit buf len i = some b) : i < 8 * len := by
  by_contra hn
  rw [streamBit_none (by omega)] at h
  cases h

theorem streamBit_eq_payloadBit {buf : Memory} {len i : Nat} {b : Bool} (h : streamBit buf len i = some b) :
    streamBit buf len i = some (payloadBit buf len i) := by
  rw [payloadBit, h]
  rfl

/-- Every stream bit below the end of a payload that holds its length exists. -/
theorem Memory.Holds.streamBit {buf : Memory} {len i : Nat} (h : Memory.Holds buf len) (hi : i < 8 * len) :
    streamBit buf len i = some (payloadBit buf len i) := by
  obtain ⟨b, hb⟩ := h.read_isSome (a := i / 8) (by omega)
  exact streamBit_eq_payloadBit (b := b.getLsbD (7 - i % 8)) (by
    rw [Machine.streamBit, memRead, if_pos (by omega), hb]; rfl)

/-! ### Big-endian values -/

@[simp] theorem bigEndianValue_zero (buf : Memory) (len p : Nat) : bigEndianValue buf len p 0 = 0 := rfl

/-- The first bit is the most significant. -/
theorem bigEndianValue_succ (buf : Memory) (len p n : Nat) :
    bigEndianValue buf len p (n + 1) =
      (payloadBit buf len p).toNat * 2 ^ n + bigEndianValue buf len (p + 1) n := by
  rw [bigEndianValue, Finset.sum_range_succ', Nat.add_comm, bigEndianValue]
  congr 1
  refine Finset.sum_congr rfl fun k hk => ?_
  have := Finset.mem_range.1 hk
  rw [show p + (k + 1) = p + 1 + k by omega, show n + 1 - 1 - (k + 1) = n - 1 - k by omega]

theorem bigEndianValue_lt (buf : Memory) (len p n : Nat) : bigEndianValue buf len p n < 2 ^ n := by
  induction n generalizing p with
  | zero => simp
  | succ n ih =>
    rw [bigEndianValue_succ]
    have h := ih (p + 1)
    have hb : (payloadBit buf len p).toNat ≤ 1 := Bool.toNat_le _
    have := Nat.mul_le_mul_right (2 ^ n) hb
    rw [pow_succ]
    omega

/-- A field read in two parts. -/
theorem bigEndianValue_add (buf : Memory) (len p a b : Nat) :
    bigEndianValue buf len p (a + b) =
      bigEndianValue buf len p a * 2 ^ b + bigEndianValue buf len (p + a) b := by
  induction a generalizing p with
  | zero => simp
  | succ a ih =>
    rw [show a + 1 + b = a + b + 1 by omega, bigEndianValue_succ, ih, bigEndianValue_succ,
      show p + 1 + a = p + (a + 1) by omega, pow_add]
    ring

end Sys2Proof.Machine
end

