-- ==== Sys2Proof/Laws/State.lean ====
section
/-! SUPPORT. The small lemmas of the state's updates, one per field per update, so that no later proof unfolds a record
update. -/

namespace Sys2Proof.Machine

/-! ### `respond` -/

@[simp] theorem State.respond_eg (s : State) (r : Response) : (s.respond r).eg = s.eg := rfl
@[simp] theorem State.respond_av (s : State) (r : Response) : (s.respond r).av = s.av := rfl
@[simp] theorem State.respond_pending (s : State) (r : Response) : (s.respond r).pending = s.pending := rfl
@[simp] theorem State.respond_responses (s : State) (r : Response) :
    (s.respond r).responses = s.responses ++ [r] := rfl

/-! ### `withEg` -/

@[simp] theorem State.withEg_eg (s : State) (r : EgReader) : (s.withEg r).eg = r := rfl
@[simp] theorem State.withEg_av (s : State) (r : EgReader) : (s.withEg r).av = s.av := rfl
@[simp] theorem State.withEg_pending (s : State) (r : EgReader) : (s.withEg r).pending = s.pending := rfl
@[simp] theorem State.withEg_responses (s : State) (r : EgReader) : (s.withEg r).responses = s.responses := rfl

/-! ### `withAv` -/

@[simp] theorem State.withAv_eg (s : State) (r : AvReader) : (s.withAv r).eg = s.eg := rfl
@[simp] theorem State.withAv_av (s : State) (r : AvReader) : (s.withAv r).av = r := rfl
@[simp] theorem State.withAv_pending (s : State) (r : AvReader) : (s.withAv r).pending = s.pending := rfl
@[simp] theorem State.withAv_responses (s : State) (r : AvReader) : (s.withAv r).responses = s.responses := rfl

/-! ### `resetBlock`, `illegalCommand`, `issuing` -/

@[simp] theorem State.resetBlock_eg (s : State) : s.resetBlock.eg = .reset := rfl
@[simp] theorem State.resetBlock_av (s : State) : s.resetBlock.av = .reset := rfl
@[simp] theorem State.resetBlock_pending (s : State) : s.resetBlock.pending = s.pending := rfl
@[simp] theorem State.resetBlock_responses (s : State) : s.resetBlock.responses = s.responses := rfl

@[simp] theorem State.illegalCommand_eg (s : State) : s.illegalCommand.eg = s.eg := rfl
@[simp] theorem State.illegalCommand_av (s : State) : s.illegalCommand.av = s.av := rfl
@[simp] theorem State.illegalCommand_pending (s : State) : s.illegalCommand.pending = s.pending := rfl
@[simp] theorem State.illegalCommand_responses (s : State) :
    s.illegalCommand.responses = s.responses ++ [.failure .illegalCommand] := rfl

@[simp] theorem State.issuing_eg (s : State) (cs : List (CmdWord × List Byte)) : (s.issuing cs).eg = s.eg := rfl
@[simp] theorem State.issuing_av (s : State) (cs : List (CmdWord × List Byte)) : (s.issuing cs).av = s.av := rfl
@[simp] theorem State.issuing_responses (s : State) (cs : List (CmdWord × List Byte)) :
    (s.issuing cs).responses = s.responses := rfl

/-! ### Responses -/

theorem Response.success_legal (v : BitVec 64) : (Response.success v).Legal := by
  simp [Response.success, Response.Legal]

theorem Response.successVar_legal (v : BitVec 64) (c : Nat) : (Response.successVar v c).Legal := by
  simp [Response.successVar, Response.Legal]

theorem Response.failure_legal {k : Kind} (h : k ≠ .none) : (Response.failure k).Legal := by
  simp [Response.failure, Response.Legal, h]

end Sys2Proof.Machine
end

