-- ==== Sys2Proof/Laws/Av1.lean ====
section
/-! SUPPORT. What the operations of unit AV do, each said once, over the global index of spec/10_state.md R15: its cursor,
its bit step and its field loop. -/

namespace Sys2Proof.Machine

/-- The reader moved to the global index `p` (R15: the byte is `p div 8` and the bit `p mod 8`). -/
def AvReader.atPos (r : AvReader) (p : Nat) : AvReader := { r with byte := p / 8, bit := Fin.ofNat 8 p }

@[simp] theorem AvReader.atPos_buf (r : AvReader) (p : Nat) : (r.atPos p).buf = r.buf := rfl
@[simp] theorem AvReader.atPos_len (r : AvReader) (p : Nat) : (r.atPos p).len = r.len := rfl
@[simp] theorem AvReader.atPos_byte (r : AvReader) (p : Nat) : (r.atPos p).byte = p / 8 := rfl
@[simp] theorem AvReader.atPos_bit (r : AvReader) (p : Nat) : (r.atPos p).bit.val = p % 8 := rfl
@[simp] theorem AvReader.atPos_atPos (r : AvReader) (p q : Nat) : (r.atPos p).atPos q = r.atPos q := rfl

@[simp] theorem AvReader.atPos_globalPos (r : AvReader) (p : Nat) : (r.atPos p).globalPos = p := by
  simp [AvReader.globalPos]
  omega

@[simp] theorem AvReader.atPos_self (r : AvReader) : r.atPos r.globalPos = r := by
  obtain ⟨buf, len, byte, bit⟩ := r
  have := bit.isLt
  simp only [AvReader.atPos, AvReader.globalPos, AvReader.mk.injEq, true_and]
  exact ⟨by omega, by ext; simp⟩

theorem AvReader.globalPos_byte (r : AvReader) : r.globalPos / 8 = r.byte := by
  have := r.bit.isLt
  simp only [AvReader.globalPos]
  omega

theorem AvReader.globalPos_bit (r : AvReader) : r.globalPos % 8 = r.bit.val := by
  have := r.bit.isLt
  simp only [AvReader.globalPos]
  omega

/-- The cursor one bit further is one more on the global index (R15, R90). -/
theorem AvReader.advance_eq (r : AvReader) : r.advance = r.atPos (r.globalPos + 1) := by
  obtain ⟨buf, len, byte, bit⟩ := r
  have := bit.isLt
  simp only [AvReader.advance, AvReader.atPos, AvReader.globalPos]
  split
  · simp only [AvReader.mk.injEq, true_and]
    exact ⟨by omega, by ext; simp; omega⟩
  · simp only [AvReader.mk.injEq, true_and]
    exact ⟨by omega, by ext; simp [Fin.val_add]; omega⟩

/-- A legal cursor is at most at the end of the payload (R15). -/
theorem AvReader.Legal.globalPos_le {r : AvReader} (h : r.Legal) : r.globalPos ≤ 8 * r.len := by
  obtain ⟨_, hb, he⟩ := h
  have := r.bit.isLt
  simp only [AvReader.globalPos]
  rcases Nat.lt_or_eq_of_le hb with hlt | heq
  · omega
  · rw [he heq, heq]
    simp

theorem AvReader.legal_atPos {r : AvReader} (h : Memory.Holds r.buf r.len) {p : Nat} (hp : p ≤ 8 * r.len) :
    (r.atPos p).Legal := by
  refine ⟨h, by simp; omega, fun he => ?_⟩
  simp only [AvReader.atPos_byte, AvReader.atPos_len] at he
  ext
  simp
  omega

/-- The next `n` stream bits exist. -/
def AvReader.Readable (r : AvReader) (n : Nat) : Prop :=
  ∀ k, k < n → streamBit r.buf r.len (r.globalPos + k) = some (payloadBit r.buf r.len (r.globalPos + k))

theorem AvReader.Legal.readable {r : AvReader} {n : Nat} (h : r.Legal) (hn : r.globalPos + n ≤ 8 * r.len) :
    r.Readable n :=
  fun _ _ => h.1.streamBit (by omega)

theorem AvReader.Readable.tail {r : AvReader} {n : Nat} (h : r.Readable (n + 1)) :
    (r.atPos (r.globalPos + 1)).Readable n :=
  fun k hk => by simpa [Nat.add_assoc, Nat.add_comm 1] using h (k + 1) (by omega)

/-! ### The bit step -/

theorem avNext_readable {r : AvReader} (h : r.Readable 1) :
    avNext r = .ok (some (payloadBit r.buf r.len r.globalPos), r.atPos (r.globalPos + 1)) := by
  have hb := h 0 (by omega)
  rw [Nat.add_zero] at hb
  have hlt := streamBit_lt hb
  have hbyte := r.globalPos_byte
  rw [avNext, if_neg (by omega)]
  rw [streamBit, r.globalPos_byte, r.globalPos_bit] at hb
  rcases hm : memRead r.buf r.len r.byte with _ | b
  · rw [hm] at hb
    cases hb
  · rw [hm] at hb
    simp only [Option.map_some, Option.some.injEq] at hb
    simp only [hb, r.advance_eq]

theorem avBit_readable {r : AvReader} (h : r.Readable 1) :
    avBit r = .done (payloadBit r.buf r.len r.globalPos) (r.atPos (r.globalPos + 1)) := by
  rw [avBit, avNext_readable h]
  rfl

theorem avNext_end {r : AvReader} (h : r.len ≤ r.byte) : avNext r = .ok (none, r) := by rw [avNext, if_pos h]

theorem avBit_end {r : AvReader} (h : r.len ≤ r.byte) : avBit r = .fail .exhausted r := by
  rw [avBit, avNext_end h]
  rfl

/-- What the bit step can do, in every state. -/
theorem avBit_cases (r : AvReader) :
    (r.byte < r.len ∧ r.Readable 1 ∧
      avBit r = .done (payloadBit r.buf r.len r.globalPos) (r.atPos (r.globalPos + 1))) ∨
    (r.len ≤ r.byte ∧ avBit r = .fail .exhausted r) ∨ avBit r = .stop .memReadUndefined := by
  by_cases h : r.len ≤ r.byte
  · exact .inr (.inl ⟨h, avBit_end h⟩)
  · rcases hm : memRead r.buf r.len r.byte with _ | b
    · right; right
      rw [avBit, avNext, if_neg h, hm]
      rfl
    · have hr : r.Readable 1 := fun k hk => by
        obtain rfl : k = 0 := by omega
        refine streamBit_eq_payloadBit (b := b.getLsbD (7 - r.bit.val)) ?_
        rw [streamBit, Nat.add_zero, r.globalPos_byte, r.globalPos_bit, hm]
        rfl
      exact .inl ⟨by omega, hr, avBit_readable hr⟩

/-! ### The field loop -/

theorem avAppend_eq (v : BitVec 64) (b : Bool) : avAppend v b = BitVec.ofNat 64 (2 * v.toNat + b.toNat) := by
  cases b <;> simp only [avAppend, Bool.toNat_true, Bool.toNat_false] <;> apply BitVec.eq_of_toNat_eq
  · simp [Nat.shiftLeft_eq, Nat.mul_comm]
  · have h : v <<< 1 = BitVec.ofNat 64 ((v.toNat % 2 ^ 63) <<< 1) := by
      apply BitVec.eq_of_toNat_eq
      simp [Nat.shiftLeft_eq]
      omega
    have h1 : ((v.toNat % 2 ^ 63) <<< 1) < 2 ^ 64 := by rw [Nat.shiftLeft_eq]; omega
    have h2 := Nat.shiftLeft_add_eq_or_of_lt (show 1 < 2 ^ 1 by omega) (v.toNat % 2 ^ 63)
    rw [h, BitVec.toNat_or, BitVec.toNat_ofNat, Nat.mod_eq_of_lt h1]
    rw [show ((BitVec.ofBool true).setWidth 64).toNat = 1 from rfl, ← h2, Nat.shiftLeft_eq, BitVec.toNat_ofNat]
    omega

/-- The field loop over bits that exist: the value so far, shifted, and the next `n` bits big-endian. -/
theorem avReadBits_readable (n : Nat) (v : BitVec 64) (r : AvReader) (h : r.Readable n) :
    avReadBits n v r =
      .done (BitVec.ofNat 64 (v.toNat * 2 ^ n + bigEndianValue r.buf r.len r.globalPos n))
        (r.atPos (r.globalPos + n)) := by
  induction n generalizing v r with
  | zero => simp [avReadBits]
  | succ n ih =>
    have h1 : r.Readable 1 := fun k hk => h k (by omega)
    rw [avReadBits, avBit_readable h1, Attempt.bind, ih _ _ h.tail, avAppend_eq]
    congr 1
    · apply BitVec.eq_of_toNat_eq
      simp only [BitVec.toNat_ofNat, AvReader.atPos_buf, AvReader.atPos_len, AvReader.atPos_globalPos]
      rw [bigEndianValue_succ, Nat.add_mod, Nat.mod_mul_mod, ← Nat.add_mod, pow_succ]
      congr 1
      ring
    · simp [Nat.add_assoc, Nat.add_comm 1]

/-- The field loop where fewer than `n` bits remain: all of them are consumed, and then it fails. -/
theorem avReadBits_short (n : Nat) (v : BitVec 64) (r : AvReader) (h : r.Legal) (hn : 8 * r.len - r.globalPos < n) :
    avReadBits n v r = .fail .exhausted (r.atPos (8 * r.len)) := by
  induction n generalizing v r with
  | zero => omega
  | succ n ih =>
    have hp := h.globalPos_le
    by_cases he : r.globalPos = 8 * r.len
    · have hbyte := r.globalPos_byte
      rw [avReadBits, avBit_end (by omega), ← he]
      simp [Attempt.bind]
    · rw [avReadBits, avBit_readable (h.readable (by omega)), Attempt.bind,
        ih _ (r.atPos (r.globalPos + 1)) (AvReader.legal_atPos h.1 (by omega)) (by simp; omega)]
      rfl

/-- What the field loop can do, in every state. -/
theorem avReadBits_cases (n : Nat) (v : BitVec 64) (r : AvReader) :
    (r.Readable n ∧ avReadBits n v r =
      .done (BitVec.ofNat 64 (v.toNat * 2 ^ n + bigEndianValue r.buf r.len r.globalPos n))
        (r.atPos (r.globalPos + n))) ∨
    (∃ m, m < n ∧ 8 * r.len ≤ r.globalPos + m ∧ avReadBits n v r = .fail .exhausted (r.atPos (r.globalPos + m))) ∨
    avReadBits n v r = .stop .memReadUndefined := by
  induction n generalizing v r with
  | zero => exact .inl ⟨fun k hk => by omega, avReadBits_readable 0 v r fun k hk => by omega⟩
  | succ n ih =>
    rcases avBit_cases r with ⟨_, hr, hb⟩ | ⟨he, hb⟩ | hb
    · rcases ih (avAppend v (payloadBit r.buf r.len r.globalPos)) (r.atPos (r.globalPos + 1)) with
        ⟨hr', _⟩ | ⟨m, hm, hl, hf⟩ | hf
      · have hall : r.Readable (n + 1) := by
          intro k hk
          rcases k with _ | k
          · exact hr 0 (by omega)
          · simpa [Nat.add_assoc, Nat.add_comm 1] using hr' k (by omega)
        exact .inl ⟨hall, avReadBits_readable _ v r hall⟩
      · refine .inr (.inl ⟨m + 1, by omega, by simpa [Nat.add_assoc, Nat.add_comm 1] using hl, ?_⟩)
        rw [avReadBits, hb, Attempt.bind, hf]
        simp [Nat.add_assoc, Nat.add_comm 1]
      · exact .inr (.inr (by rw [avReadBits, hb, Attempt.bind, hf]))
    · refine .inr (.inl ⟨0, by omega, ?_, by rw [avReadBits, hb, Attempt.bind]; simp⟩)
      have := r.globalPos_byte
      omega
    · exact .inr (.inr (by rw [avReadBits, hb, Attempt.bind]))

theorem avWidthInvalid_iff (n : Nat) : avWidthInvalid n = true ↔ 64 < n := decide_eq_true_iff

/-- The width test comes before any bit is consumed (R92). -/
theorem avReadField_wide {n : Nat} (h : 64 < n) (r : AvReader) : avReadField n r = .fail .invalidWidth r := by
  rw [avReadField, if_pos ((avWidthInvalid_iff n).2 h)]

theorem avReadField_narrow {n : Nat} (h : n ≤ 64) (r : AvReader) : avReadField n r = avReadBits n 0 r := by
  rw [avReadField, if_neg]
  rw [avWidthInvalid_iff]
  omega

/-! ### The end of an AV command -/

/-- What an AV command can answer: a next state in which only the unit and the responses have changed, or a fault. -/
theorem State.finishAv_next {s t : State} {a : Attempt AvReader (BitVec 64)} (h : s.finishAv a = .next t) :
    (∃ v r, a = .done v r ∧ t = (s.withAv r).respond (.success v)) ∨
    (∃ k r, a = .fail k r ∧ t = (s.withAv r).respond (.failure k)) := by
  rcases a with ⟨v, r⟩ | ⟨k, r⟩ | f
  · exact .inl ⟨v, r, rfl, by simpa [State.finishAv] using h.symm⟩
  · exact .inr ⟨k, r, rfl, by simpa [State.finishAv] using h.symm⟩
  · simp [State.finishAv] at h

end Sys2Proof.Machine
end

