-- ==== Sys2Proof/Laws/Decode.lean ====
section
/-! SUPPORT. The decoder and the encoder meet at the four fields of the command word (spec/30_encoding.md R51): the
fields of a word built from fields are those fields, and a word is built from its own. -/

namespace Sys2Proof

/-- The immediate fits when it is at most 255 (R53). -/
@[simp] theorem immediateFits_iff (n : Nat) : immediateFits n = true ↔ n ≤ 255 := decide_eq_true_iff

@[simp] theorem wf_egRdbits (n : Nat) : (Instr.egRdbits n).wf = immediateFits n := rfl
@[simp] theorem wf_avRdbits (n : Nat) : (Instr.avRdbits n).wf = immediateFits n := rfl

/-- The fields of a word, by the number the word is. -/
theorem unitField_toNat (w : CmdWord) : (unitField w).toNat = w.toNat / 2 ^ 14 := by
  have := w.isLt
  rw [unitField, BitVec.extractLsb'_toNat, Nat.shiftRight_eq_div_pow]
  omega

theorem opField_toNat (w : CmdWord) : (opField w).toNat = w.toNat / 2 ^ 11 % 8 := by
  rw [opField, BitVec.extractLsb'_toNat, Nat.shiftRight_eq_div_pow]

theorem rsvField_toNat (w : CmdWord) : (rsvField w).toNat = w.toNat / 2 ^ 8 % 8 := by
  rw [rsvField, BitVec.extractLsb'_toNat, Nat.shiftRight_eq_div_pow]

theorem immField_toNat (w : CmdWord) : (immField w).toNat = w.toNat % 2 ^ 8 := by
  rw [immField, BitVec.extractLsb'_toNat, Nat.shiftRight_zero]

/-- The number a word built from fields is. -/
theorem cmdWord_toNat (u : BitVec 2) (o : BitVec 3) (n : BitVec 8) :
    (cmdWord u o n).toNat = u.toNat * 2 ^ 14 + o.toNat * 2 ^ 11 + n.toNat := by
  have h : (cmdWord u o n).toNat = (u ++ o ++ 0#3 ++ n : BitVec (2 + 3 + 3 + 8)).toNat := rfl
  rw [h, BitVec.toNat_append, BitVec.toNat_append, BitVec.toNat_append,
    ← Nat.shiftLeft_add_eq_or_of_lt n.isLt, ← Nat.shiftLeft_add_eq_or_of_lt (0#3).isLt,
    ← Nat.shiftLeft_add_eq_or_of_lt o.isLt]
  simp only [Nat.shiftLeft_eq, BitVec.toNat_ofNat]
  omega

@[simp] theorem unitField_cmdWord (u : BitVec 2) (o : BitVec 3) (n : BitVec 8) : unitField (cmdWord u o n) = u := by
  have h1 := u.isLt
  have h2 := o.isLt
  have h3 := n.isLt
  apply BitVec.eq_of_toNat_eq
  rw [unitField_toNat, cmdWord_toNat]
  omega

@[simp] theorem opField_cmdWord (u : BitVec 2) (o : BitVec 3) (n : BitVec 8) : opField (cmdWord u o n) = o := by
  have h1 := u.isLt
  have h2 := o.isLt
  have h3 := n.isLt
  apply BitVec.eq_of_toNat_eq
  rw [opField_toNat, cmdWord_toNat]
  omega

@[simp] theorem rsvField_cmdWord (u : BitVec 2) (o : BitVec 3) (n : BitVec 8) : rsvField (cmdWord u o n) = 0 := by
  have h3 := n.isLt
  apply BitVec.eq_of_toNat_eq
  rw [rsvField_toNat, cmdWord_toNat, show (0 : BitVec 3).toNat = 0 from rfl]
  omega

@[simp] theorem immField_cmdWord (u : BitVec 2) (o : BitVec 3) (n : BitVec 8) : immField (cmdWord u o n) = n := by
  have h3 := n.isLt
  apply BitVec.eq_of_toNat_eq
  rw [immField_toNat, cmdWord_toNat]
  omega

/-- A word whose reserved field is `000` is built from its other fields. -/
theorem cmdWord_fields {w : CmdWord} (h : rsvField w = 0) : cmdWord (unitField w) (opField w) (immField w) = w := by
  apply BitVec.eq_of_toNat_eq
  have h3 := rsvField_toNat w
  rw [h] at h3
  simp only [BitVec.ofNat_eq_ofNat, BitVec.toNat_ofNat] at h3
  rw [cmdWord_toNat, unitField_toNat, opField_toNat, immField_toNat]
  have := w.isLt
  omega

/-- A command without immediate is read only from a word whose immediate is 0 (R51). -/
theorem withoutImmediate_ok {w : CmdWord} {i j : Instr} (h : withoutImmediate w i = .ok j) :
    immField w = 0 ∧ j = i := by
  rw [withoutImmediate] at h
  split at h
  · cases h
    exact ⟨‹_›, rfl⟩
  · cases h

theorem withoutImmediate_cmdWord (u : BitVec 2) (o : BitVec 3) (i : Instr) :
    withoutImmediate (cmdWord u o 0) i = .ok i := by simp [withoutImmediate]

end Sys2Proof
end

