-- ==== Sys2Proof/Laws/ExpGolomb.lean ====
section
/-! SUPPORT. What the operations of unit EG do, each said once: its bit step, its field loop, its prefix loop and its two
decoders. For each there is an equation where the payload has the bits it needs, and an inversion for every state. -/

namespace Sys2Proof.Machine

/-- The reader moved to position `p`. -/
def EgReader.atPos (r : EgReader) (p : Nat) : EgReader := { r with pos := p }

@[simp] theorem EgReader.atPos_buf (r : EgReader) (p : Nat) : (r.atPos p).buf = r.buf := rfl
@[simp] theorem EgReader.atPos_len (r : EgReader) (p : Nat) : (r.atPos p).len = r.len := rfl
@[simp] theorem EgReader.atPos_pos (r : EgReader) (p : Nat) : (r.atPos p).pos = p := rfl
@[simp] theorem EgReader.atPos_atPos (r : EgReader) (p q : Nat) : (r.atPos p).atPos q = r.atPos q := rfl
@[simp] theorem EgReader.atPos_self (r : EgReader) : r.atPos r.pos = r := rfl

/-- The next `n` stream bits exist. -/
def EgReader.Readable (r : EgReader) (n : Nat) : Prop :=
  ∀ k, k < n → streamBit r.buf r.len (r.pos + k) = some (payloadBit r.buf r.len (r.pos + k))

theorem EgReader.Legal.readable {r : EgReader} {n : Nat} (h : r.Legal) (hn : r.pos + n ≤ 8 * r.len) : r.Readable n :=
  fun _ _ => h.1.streamBit (by omega)

theorem EgReader.Readable.tail {r : EgReader} {n : Nat} (h : r.Readable (n + 1)) : (r.atPos (r.pos + 1)).Readable n :=
  fun k hk => by simpa [Nat.add_assoc, Nat.add_comm 1] using h (k + 1) (by omega)

/-! ### The bit step -/

theorem egBit_readable {r : EgReader} (h : r.Readable 1) :
    egBit r = .done (payloadBit r.buf r.len r.pos) (r.atPos (r.pos + 1)) := by
  have hb := h 0 (by omega)
  have hlt := streamBit_lt hb
  rw [Nat.add_zero] at hb hlt
  rw [egBit, egNext, if_neg (by omega), hb]
  rfl

theorem egBit_end {r : EgReader} (h : 8 * r.len ≤ r.pos) : egBit r = .fail .exhausted r := by
  rw [egBit, egNext, if_pos h]
  rfl

/-- What the bit step can do, in every state. -/
theorem egBit_cases (r : EgReader) :
    (r.pos < 8 * r.len ∧ r.Readable 1 ∧ egBit r = .done (payloadBit r.buf r.len r.pos) (r.atPos (r.pos + 1))) ∨
    (8 * r.len ≤ r.pos ∧ egBit r = .fail .exhausted r) ∨ egBit r = .stop .memReadUndefined := by
  by_cases h : 8 * r.len ≤ r.pos
  · exact .inr (.inl ⟨h, egBit_end h⟩)
  · rcases hb : streamBit r.buf r.len r.pos with _ | b
    · right; right
      rw [egBit, egNext, if_neg h, hb]
      rfl
    · have hr : r.Readable 1 := fun k hk => by
        obtain rfl : k = 0 := by omega
        exact streamBit_eq_payloadBit hb
      exact .inl ⟨by omega, hr, egBit_readable hr⟩

/-! ### The field loop -/

theorem egAppend_eq (v : BitVec 32) (b : Bool) : egAppend v b = BitVec.ofNat 32 (2 * v.toNat + b.toNat) := by
  cases b <;> simp only [egAppend, Bool.toNat_true, Bool.toNat_false] <;> apply BitVec.eq_of_toNat_eq
  · simp [Nat.shiftLeft_eq, Nat.mul_comm]
  · have h : v <<< 1 = BitVec.ofNat 32 ((v.toNat % 2 ^ 31) <<< 1) := by
      apply BitVec.eq_of_toNat_eq
      simp [Nat.shiftLeft_eq]
      omega
    have h1 : ((v.toNat % 2 ^ 31) <<< 1) < 2 ^ 32 := by rw [Nat.shiftLeft_eq]; omega
    have h2 := Nat.shiftLeft_add_eq_or_of_lt (show 1 < 2 ^ 1 by omega) (v.toNat % 2 ^ 31)
    rw [h, BitVec.toNat_or, BitVec.toNat_ofNat, Nat.mod_eq_of_lt h1]
    rw [show ((BitVec.ofBool true).setWidth 32).toNat = 1 from rfl, ← h2, Nat.shiftLeft_eq, BitVec.toNat_ofNat]
    omega

/-- The field loop over bits that exist: the value so far, shifted, and the next `n` bits big-endian. -/
theorem egReadBits_readable (n : Nat) (v : BitVec 32) (r : EgReader) (h : r.Readable n) :
    egReadBits n v r =
      .done (BitVec.ofNat 32 (v.toNat * 2 ^ n + bigEndianValue r.buf r.len r.pos n)) (r.atPos (r.pos + n)) := by
  induction n generalizing v r with
  | zero => simp [egReadBits]
  | succ n ih =>
    have h1 : r.Readable 1 := fun k hk => h k (by omega)
    rw [egReadBits, egBit_readable h1, Attempt.bind, ih _ _ h.tail, egAppend_eq]
    congr 1
    · apply BitVec.eq_of_toNat_eq
      simp only [BitVec.toNat_ofNat, EgReader.atPos_buf, EgReader.atPos_len, EgReader.atPos_pos]
      rw [bigEndianValue_succ, Nat.add_mod, Nat.mod_mul_mod, ← Nat.add_mod, pow_succ]
      congr 1
      ring
    · simp [Nat.add_assoc, Nat.add_comm 1]

/-- The field loop where fewer than `n` bits remain: all of them are consumed, and then it fails. -/
theorem egReadBits_short (n : Nat) (v : BitVec 32) (r : EgReader) (h : r.Legal) (hn : 8 * r.len - r.pos < n) :
    egReadBits n v r = .fail .exhausted (r.atPos (8 * r.len)) := by
  induction n generalizing v r with
  | zero => omega
  | succ n ih =>
    have hp := h.2
    by_cases he : r.pos = 8 * r.len
    · rw [egReadBits, egBit_end (by omega), ← he]
      rfl
    · have hl : (r.atPos (r.pos + 1)).Legal := ⟨h.1, by simp; omega⟩
      rw [egReadBits, egBit_readable (h.readable (by omega)), Attempt.bind, ih _ _ hl (by simp; omega)]
      rfl

/-- What the field loop can do, in every state. -/
theorem egReadBits_cases (n : Nat) (v : BitVec 32) (r : EgReader) :
    (r.Readable n ∧ egReadBits n v r =
      .done (BitVec.ofNat 32 (v.toNat * 2 ^ n + bigEndianValue r.buf r.len r.pos n)) (r.atPos (r.pos + n))) ∨
    (∃ m, m < n ∧ 8 * r.len ≤ r.pos + m ∧ egReadBits n v r = .fail .exhausted (r.atPos (r.pos + m))) ∨
    egReadBits n v r = .stop .memReadUndefined := by
  induction n generalizing v r with
  | zero => exact .inl ⟨fun k hk => by omega, egReadBits_readable 0 v r fun k hk => by omega⟩
  | succ n ih =>
    rcases egBit_cases r with ⟨_, hr, hb⟩ | ⟨he, hb⟩ | hb
    · rcases ih (egAppend v (payloadBit r.buf r.len r.pos)) (r.atPos (r.pos + 1)) with ⟨hr', _⟩ | ⟨m, hm, hl, hf⟩ | hf
      · have hall : r.Readable (n + 1) := by
          intro k hk
          rcases k with _ | k
          · exact hr 0 (by omega)
          · simpa [Nat.add_assoc, Nat.add_comm 1] using hr' k (by omega)
        exact .inl ⟨hall, egReadBits_readable _ v r hall⟩
      · refine .inr (.inl ⟨m + 1, by omega, by simpa [Nat.add_assoc, Nat.add_comm 1] using hl, ?_⟩)
        rw [egReadBits, hb, Attempt.bind, hf]
        simp [Nat.add_assoc, Nat.add_comm 1]
      · exact .inr (.inr (by rw [egReadBits, hb, Attempt.bind, hf]))
    · exact .inr (.inl ⟨0, by omega, he, by rw [egReadBits, hb, Attempt.bind]; simp⟩)
    · exact .inr (.inr (by rw [egReadBits, hb, Attempt.bind]))

theorem egWidthInvalid_iff (n : Nat) : egWidthInvalid n = true ↔ 32 < n := decide_eq_true_iff

/-- The width test comes before any bit is consumed (R72). -/
theorem egReadField_wide {n : Nat} (h : 32 < n) (r : EgReader) : egReadField n r = .fail .invalidWidth r := by
  rw [egReadField, if_pos ((egWidthInvalid_iff n).2 h)]

theorem egReadField_narrow {n : Nat} (h : n ≤ 32) (r : EgReader) : egReadField n r = egReadBits n 0 r := by
  rw [egReadField, if_neg]
  rw [egWidthInvalid_iff]
  omega

/-! ### The prefix loop -/

theorem zeroRun_le (buf : Memory) (len p most : Nat) : zeroRun buf len p most ≤ most := by
  induction most generalizing p with
  | zero => simp [zeroRun]
  | succ m ih =>
    rw [zeroRun]
    split
    · omega
    · have := ih (p + 1)
      omega

/-- The bit a run of zeros stops at is a 1, unless the count stops it. -/
theorem zeroRun_stop (buf : Memory) (len p most : Nat) (h : zeroRun buf len p most < most) :
    payloadBit buf len (p + zeroRun buf len p most) = true := by
  induction most generalizing p with
  | zero => omega
  | succ m ih =>
    rw [zeroRun] at h ⊢
    by_cases hb : payloadBit buf len p = true
    · simp [hb]
    · rw [if_neg hb] at h ⊢
      rw [← Nat.add_assoc]
      exact ih (p + 1) (by omega)

/-- The prefix loop over a legal reader, by the number of zeros that stand at its position. -/
theorem egPrefix_legal (more lz : Nat) (r : EgReader) (h : r.Legal) :
    let z := zeroRun r.buf r.len r.pos (min more (8 * r.len - r.pos))
    egPrefix more lz r =
      if z = more then .fail .malformedCode (r.atPos (r.pos + more))
      else if r.pos + z = 8 * r.len then .fail .exhausted (r.atPos (8 * r.len))
      else .done (lz + z) (r.atPos (r.pos + z + 1)) := by
  induction more generalizing lz r with
  | zero => simp [egPrefix, zeroRun]
  | succ m ih =>
    have hp := h.2
    by_cases he : r.pos = 8 * r.len
    · rw [egPrefix, egBit_end (by omega), Attempt.bind, ← he]
      simp [zeroRun]
    · obtain ⟨d, hd⟩ : ∃ d, 8 * r.len - r.pos = d + 1 := ⟨8 * r.len - r.pos - 1, by omega⟩
      rw [egPrefix, egBit_readable (h.readable (by omega)), Attempt.bind, hd, Nat.add_min_add_right]
      have hl : (r.atPos (r.pos + 1)).Legal := ⟨h.1, by simp; omega⟩
      by_cases hb : payloadBit r.buf r.len r.pos = true
      · simp [zeroRun, hb, he]
      · have hd' : 8 * r.len - (r.pos + 1) = d := by omega
        have ih := ih (lz + 1) _ hl
        simp only [EgReader.atPos_buf, EgReader.atPos_len, EgReader.atPos_pos, hd', EgReader.atPos_atPos] at ih
        rw [if_neg hb, ih]
        simp only [zeroRun, if_neg hb]
        generalize zeroRun r.buf r.len (r.pos + 1) (min m d) = z
        rw [show r.pos + 1 + m = r.pos + (m + 1) by omega, show r.pos + 1 + z = r.pos + (1 + z) by omega,
          show lz + 1 + z = lz + (1 + z) by omega]
        simp only [show (1 + z = m + 1) = (z = m) from propext (by omega)]

/-- What the prefix loop can do, in every state. -/
theorem egPrefix_cases (more lz : Nat) (r : EgReader) :
    (∃ z, z < more ∧ egPrefix more lz r = .done (lz + z) (r.atPos (r.pos + z + 1))) ∨
    egPrefix more lz r = .fail .malformedCode (r.atPos (r.pos + more)) ∨
    (∃ m, m < more ∧ 8 * r.len ≤ r.pos + m ∧ egPrefix more lz r = .fail .exhausted (r.atPos (r.pos + m))) ∨
    egPrefix more lz r = .stop .memReadUndefined := by
  induction more generalizing lz r with
  | zero => exact .inr (.inl (by simp [egPrefix]))
  | succ n ih =>
    rcases egBit_cases r with ⟨_, _, hb⟩ | ⟨he, hb⟩ | hb
    · by_cases h1 : payloadBit r.buf r.len r.pos = true
      · exact .inl ⟨0, by omega, by rw [egPrefix, hb, Attempt.bind, if_pos h1]; rfl⟩
      · have hstep : egPrefix (n + 1) lz r = egPrefix n (lz + 1) (r.atPos (r.pos + 1)) := by
          rw [egPrefix, hb, Attempt.bind, if_neg h1]
        rcases ih (lz + 1) (r.atPos (r.pos + 1)) with ⟨z, hz, hf⟩ | hf | ⟨m, hm, hl, hf⟩ | hf
        · refine .inl ⟨z + 1, by omega, ?_⟩
          rw [hstep, hf]
          simp [Nat.add_assoc, Nat.add_comm 1]
        · refine .inr (.inl ?_)
          rw [hstep, hf]
          simp [Nat.add_assoc, Nat.add_comm 1]
        · refine .inr (.inr (.inl ⟨m + 1, by omega, by simpa [Nat.add_assoc, Nat.add_comm 1] using hl, ?_⟩))
          rw [hstep, hf]
          simp [Nat.add_assoc, Nat.add_comm 1]
        · exact .inr (.inr (.inr (by rw [hstep, hf])))
    · exact .inr (.inr (.inl ⟨0, by omega, he, by rw [egPrefix, hb, Attempt.bind]; simp⟩))
    · exact .inr (.inr (.inr (by rw [egPrefix, hb, Attempt.bind])))

/-! ### The decoders -/

theorem ueSum_lt {lz n : Nat} (hz : lz < 32) (hn : n < 2 ^ lz) : (2 ^ lz - 1) + n ≤ 2 ^ 32 - 2 := by
  have := Nat.pow_le_pow_right (show 0 < 2 by omega) (show lz ≤ 31 by omega)
  omega

theorem ueSum_bitvec {lz n : Nat} (hz : lz < 32) :
    (BitVec.ofNat 32 (2 ^ lz) - 1) + BitVec.ofNat 32 n = BitVec.ofNat 32 ((2 ^ lz - 1) + n) := by
  have h1 : 0 < 2 ^ lz := by positivity
  have h2 := Nat.pow_le_pow_right (show 0 < 2 by omega) (show lz ≤ 31 by omega)
  apply BitVec.eq_of_toNat_eq
  simp only [BitVec.ofNat_eq_ofNat, BitVec.toNat_add, BitVec.toNat_sub, BitVec.toNat_ofNat]
  omega

/-- The decoder after its prefix. -/
theorem egDecodeUe_done {r r' : EgReader} {lz : Nat} (h : egPrefix 32 0 r = .done lz r') (hz : lz < 32)
    (hr : r'.Readable lz) :
    egDecodeUe r = .done (BitVec.ofNat 32 ((2 ^ lz - 1) + bigEndianValue r'.buf r'.len r'.pos lz))
      (r'.atPos (r'.pos + lz)) := by
  rw [egDecodeUe, show Config.egPrefixMax + 1 = 32 from rfl, h, Attempt.bind]
  by_cases h0 : lz = 0
  · subst h0
    simp
  · rw [if_neg h0, egReadBits_readable _ _ _ hr, Attempt.map, Attempt.bind]
    simp only [BitVec.toNat_zero, Nat.zero_mul, Nat.zero_add, BitVec.ofNat_eq_ofNat]
    rw [← ueSum_bitvec hz]
    rfl

/-- The unsigned decoder over a legal reader: the four cases of R74. -/
theorem egDecodeUe_legal (r : EgReader) (h : r.Legal) :
    egDecodeUe r =
      if r.ueKind = .none then .done (BitVec.ofNat 32 r.ueValue) (r.atPos r.ueRest)
      else .fail r.ueKind (r.atPos r.ueRest) := by
  have hp := h.2
  have hpre := egPrefix_legal 32 0 r h
  have hz : zeroRun r.buf r.len r.pos (min 32 (8 * r.len - r.pos)) = r.zeros := rfl
  simp only [hz] at hpre
  have hle : r.zeros ≤ min 32 (8 * r.len - r.pos) := zeroRun_le _ _ _ _
  have h32 : Config.egPrefixMax + 1 = 32 := rfl
  by_cases h1 : r.zeros = 32
  · rw [if_pos h1] at hpre
    rw [egDecodeUe, h32, hpre]
    simp [EgReader.ueKind, EgReader.ueRest, h1, Attempt.bind]
  · rw [if_neg h1] at hpre
    by_cases h2 : r.pos + r.zeros = 8 * r.len
    · rw [if_pos h2] at hpre
      have h3 : ¬ r.pos + 2 * r.zeros + 1 ≤ 8 * r.len := by omega
      rw [egDecodeUe, h32, hpre]
      simp [EgReader.ueKind, EgReader.ueRest, h1, h3, Attempt.bind]
    · rw [if_neg h2, Nat.zero_add] at hpre
      have hl : (r.atPos (r.pos + r.zeros + 1)).Legal := ⟨h.1, by simp; omega⟩
      by_cases h3 : r.pos + 2 * r.zeros + 1 ≤ 8 * r.len
      · rw [egDecodeUe_done hpre (by omega) (hl.readable (by simp; omega))]
        simp [EgReader.ueKind, EgReader.ueRest, EgReader.ueValue, h1, h3]
        congr 1
        omega
      · rw [egDecodeUe, h32, hpre, Attempt.bind, if_neg (by omega),
          egReadBits_short _ _ _ hl (by simp; omega)]
        simp [EgReader.ueKind, EgReader.ueRest, h1, h3, Attempt.map, Attempt.bind]

/-- What the unsigned decoder can do, in every state. -/
theorem egDecodeUe_cases (r : EgReader) :
    (∃ lz n, lz < 32 ∧ n < 2 ^ lz ∧
      egDecodeUe r = .done (BitVec.ofNat 32 ((2 ^ lz - 1) + n)) (r.atPos (r.pos + 2 * lz + 1))) ∨
    egDecodeUe r = .fail .malformedCode (r.atPos (r.pos + 32)) ∨
    (∃ m, m < 63 ∧ 8 * r.len ≤ r.pos + m ∧ egDecodeUe r = .fail .exhausted (r.atPos (r.pos + m))) ∨
    egDecodeUe r = .stop .memReadUndefined := by
  have h32 : Config.egPrefixMax + 1 = 32 := rfl
  rcases egPrefix_cases 32 0 r with ⟨lz, hz, hf⟩ | hf | ⟨m, hm, hl, hf⟩ | hf
  · rw [Nat.zero_add] at hf
    rcases egReadBits_cases lz 0 (r.atPos (r.pos + lz + 1)) with ⟨hr, _⟩ | ⟨m, hm, hl, hb⟩ | hb
    · refine .inl ⟨lz, _, hz, bigEndianValue_lt r.buf r.len (r.pos + lz + 1) lz, ?_⟩
      rw [egDecodeUe_done hf hz hr]
      simp
      congr 1
      omega
    · refine .inr (.inr (.inl ⟨lz + 1 + m, by omega, by simp at hl; omega, ?_⟩))
      rw [egDecodeUe, h32, hf, Attempt.bind, if_neg (by omega), hb]
      simp [Attempt.map, Attempt.bind, Nat.add_assoc]
    · have h0 : lz ≠ 0 := by rintro rfl; cases hb
      refine .inr (.inr (.inr ?_))
      rw [egDecodeUe, h32, hf, Attempt.bind, if_neg h0, hb]
      rfl
  · exact .inr (.inl (by rw [egDecodeUe, h32, hf]; rfl))
  · exact .inr (.inr (.inl ⟨m, by omega, hl, by rw [egDecodeUe, h32, hf]; rfl⟩))
  · exact .inr (.inr (.inr (by rw [egDecodeUe, h32, hf]; rfl)))

/-- The signed decoder is the unsigned one with its value mapped (R76). -/
theorem egDecodeSe_eq (r : EgReader) :
    egDecodeSe r = (egDecodeUe r).map fun ue => BitVec.ofInt 32 (seOfUe ue.toNat) := rfl

/-! ### The end of an EG command -/

/-- What an EG command can answer: a next state in which only the unit and the responses have changed, or a fault. -/
theorem State.finishEg_next {s t : State} {a : Attempt EgReader (BitVec 32)} (h : s.finishEg a = .next t) :
    (∃ v r, a = .done v r ∧ t = (s.withEg r).respond (.success (v.setWidth 64))) ∨
    (∃ k r, a = .fail k r ∧ t = (s.withEg r).respond (.failure k)) := by
  rcases a with ⟨v, r⟩ | ⟨k, r⟩ | f
  · exact .inl ⟨v, r, rfl, by simpa [State.finishEg] using h.symm⟩
  · exact .inr ⟨k, r, rfl, by simpa [State.finishEg] using h.symm⟩
  · simp [State.finishEg] at h

end Sys2Proof.Machine
end

