-- ==== Sys2Proof/Laws/PerInstr.lean ====
section
/-! SUPPORT. Statements about every command as syntax, one lemma per constructor of `Instr`. -/

namespace Sys2Proof.Laws.EncodedWordSelectsItsRow

/-- The word of a command selects the row of the opcode map (spec/30_encoding.md R52) that has its mnemonic, and no
other row. -/
def Statement (i : Instr) : Prop :=
  (opcodeRows.filter fun r => r.selects (encodeWord i)).map OpcodeRow.mnemonic = [i.mnemonic]

theorem rdbits_rows :
    ∀ n : BitVec 8,
      (opcodeRows.filter fun r => r.selects (cmdWord 0b00 0b011 n)).map OpcodeRow.mnemonic = ["EG.RDBITS"] ∧
      (opcodeRows.filter fun r => r.selects (cmdWord 0b01 0b011 n)).map OpcodeRow.mnemonic = ["AV.RDBITS"] := by
  decide

theorem operand_rows :
    (opcodeRows.filter fun r => r.selects (cmdWord 0b00 0b001 0)).map OpcodeRow.mnemonic = ["EG.INIT"] ∧
    (opcodeRows.filter fun r => r.selects (cmdWord 0b01 0b001 0)).map OpcodeRow.mnemonic = ["AV.INIT"] ∧
    (opcodeRows.filter fun r => r.selects (cmdWord 0b10 0b001 0)).map OpcodeRow.mnemonic = ["VU.DEC"] := by
  decide

theorem egInit (payload : List Byte) : Statement (.egInit payload) := operand_rows.1
theorem egRdbit : Statement .egRdbit := by rw [Statement]; decide
theorem egRdbits (n : Nat) : Statement (.egRdbits n) := (rdbits_rows (BitVec.ofNat 8 n)).1
theorem egRdue : Statement .egRdue := by rw [Statement]; decide
theorem egRdse : Statement .egRdse := by rw [Statement]; decide
theorem egSkue : Statement .egSkue := by rw [Statement]; decide
theorem egSkse : Statement .egSkse := by rw [Statement]; decide
theorem avInit (payload : List Byte) : Statement (.avInit payload) := operand_rows.2.1
theorem avRdbit : Statement .avRdbit := by rw [Statement]; decide
theorem avRdbits (n : Nat) : Statement (.avRdbits n) := (rdbits_rows (BitVec.ofNat 8 n)).2
theorem vuDec (s : List Byte) : Statement (.vuDec s) := operand_rows.2.2

end Sys2Proof.Laws.EncodedWordSelectsItsRow
end

