-- ==== Sys2Proof/Laws/Varuint.lean ====
section
/-! SUPPORT. What the scan of unit VU does, said once: where it ends and what it has accumulated. -/

namespace Sys2Proof.Machine

/-- The sum of the 7-bit groups of the first `n` bytes, each at its place (spec/42_varuint.md R101). -/
def vuSum (s : List Byte) (n : Nat) : Nat := ∑ i ∈ Finset.range n, (s.getD i 0).toNat % 128 * 2 ^ (7 * i)

@[simp] theorem vuSum_zero (s : List Byte) : vuSum s 0 = 0 := rfl

theorem vuSum_succ (s : List Byte) (n : Nat) :
    vuSum s (n + 1) = vuSum s n + (s.getD n 0).toNat % 128 * 2 ^ (7 * n) := Finset.sum_range_succ _ _

theorem vuSum_lt (s : List Byte) (n : Nat) : vuSum s n < 2 ^ (7 * n) := by
  induction n with
  | zero => simp
  | succ n ih =>
    have h : (s.getD n 0).toNat % 128 ≤ 127 := by omega
    have := Nat.mul_le_mul_right (2 ^ (7 * n)) h
    rw [vuSum_succ, show 7 * (n + 1) = 7 * n + 7 by ring, pow_add]
    omega

/-- The high bit of a byte, by its value. -/
theorem byte_high_iff (b : Byte) : b.getLsbD 7 = true ↔ 128 ≤ b.toNat := by
  have h := b.isLt
  rw [BitVec.getLsbD, Nat.testBit_eq_decide_div_mod_eq, decide_eq_true_iff]
  omega

/-- Accumulating a group onto groups below it is adding it at its place, modulo `2^64`. -/
theorem vuAccumulate_eq (n i : Nat) (b : Byte) (hn : n < 2 ^ (7 * i)) :
    vuAccumulate (BitVec.ofNat 64 n) i b = BitVec.ofNat 64 (n + b.toNat % 128 * 2 ^ (7 * i)) := by
  apply BitVec.eq_of_toNat_eq
  have h := Nat.shiftLeft_add_eq_or_of_lt hn (b.toNat % 128)
  rw [Nat.shiftLeft_eq] at h
  rw [vuAccumulate, BitVec.toNat_or, BitVec.toNat_shiftLeft, BitVec.toNat_setWidth, BitVec.extractLsb'_toNat,
    BitVec.toNat_ofNat, BitVec.toNat_ofNat, Nat.add_comm, h, Nat.shiftLeft_eq, Nat.shiftRight_zero,
    Nat.mod_eq_of_lt (show b.toNat % 2 ^ 7 < 2 ^ 64 by omega), Nat.or_comm, ← Nat.or_mod_two_pow]
  rfl

/-- The scan over bytes that all go on: nothing is found. -/
theorem vuScan_none (more i : Nat) (acc : BitVec 64) (s : List Byte)
    (h : ∀ k, k < min s.length more → (s.getD k 0).getLsbD 7 = true) : vuScan more i acc s = none := by
  induction more generalizing i acc s with
  | zero => rfl
  | succ m ih =>
    rcases s with _ | ⟨b, rest⟩
    · rfl
    · have hb : b.getLsbD 7 = true := h 0 (by simp)
      rw [vuScan, if_pos hb]
      exact ih _ _ _ fun k hk => by simpa using h (k + 1) (by simp at hk ⊢; omega)

/-- The scan that ends at index `t`: it has accumulated the groups up to it, and its index is `t`. -/
theorem vuScan_at (s : List Byte) (t : Nat) (more i n : Nat) (hn : n < 2 ^ (7 * i)) (ht : t < min s.length more)
    (hend : (s.getD t 0).getLsbD 7 = false) (hgo : ∀ k, k < t → (s.getD k 0).getLsbD 7 = true) :
    vuScan more i (BitVec.ofNat 64 n) s =
      some (BitVec.ofNat 64 (n + 2 ^ (7 * i) * vuSum s (t + 1)), i + t + 1) := by
  induction t generalizing more i n s with
  | zero =>
    obtain ⟨m, rfl⟩ : ∃ m, more = m + 1 := ⟨more - 1, by omega⟩
    rcases s with _ | ⟨b, rest⟩
    · simp at ht
    · have hb : b.getLsbD 7 = false := hend
      rw [vuScan, if_neg (Bool.eq_false_iff.1 hb), vuAccumulate_eq n i b hn, vuSum_succ]
      simp [Nat.mul_comm]
  | succ t ih =>
    obtain ⟨m, rfl⟩ : ∃ m, more = m + 1 := ⟨more - 1, by omega⟩
    rcases s with _ | ⟨b, rest⟩
    · simp at ht
    · have hb : b.getLsbD 7 = true := hgo 0 (by omega)
      have hlt : n + b.toNat % 128 * 2 ^ (7 * i) < 2 ^ (7 * (i + 1)) := by
        have := Nat.mul_le_mul_right (2 ^ (7 * i)) (show b.toNat % 128 ≤ 127 by omega)
        rw [show 7 * (i + 1) = 7 * i + 7 by ring, pow_add]
        omega
      rw [vuScan, if_pos hb, vuAccumulate_eq n i b hn,
        ih rest m (i + 1) _ hlt (by simp at ht ⊢; omega) (by simpa using hend)
          fun k hk => by simpa using hgo (k + 1) (by omega)]
      have hsum : vuSum (b :: rest) (t + 1 + 1) = b.toNat % 128 + 2 ^ 7 * vuSum rest (t + 1) := by
        rw [vuSum, Finset.sum_range_succ', Nat.add_comm, vuSum, Finset.mul_sum]
        congr 1
        · simp
        · refine Finset.sum_congr rfl fun k _ => ?_
          rw [List.getD_cons_succ, show 7 * (k + 1) = 7 + 7 * k by ring, pow_add]
          ring
      rw [hsum, show 7 * (i + 1) = 7 * i + 7 by ring, pow_add]
      congr 2
      · congr 1
        ring
      · omega

/-- Either every byte the bound admits goes on, or there is a first one that does not. -/
theorem vuFirst (s : List Byte) (m : Nat) :
    (∀ k, k < m → (s.getD k 0).getLsbD 7 = true) ∨
    ∃ t, t < m ∧ (s.getD t 0).getLsbD 7 = false ∧ ∀ k, k < t → (s.getD k 0).getLsbD 7 = true := by
  induction m with
  | zero => exact .inl fun k hk => by omega
  | succ m ih =>
    rcases ih with h | ⟨t, ht, h⟩
    · by_cases hm : (s.getD m 0).getLsbD 7 = true
      · refine .inl fun k hk => ?_
        rcases Nat.lt_succ_iff_lt_or_eq.1 hk with hk | rfl
        · exact h k hk
        · exact hm
      · exact .inr ⟨m, by omega, by simpa using hm, h⟩
    · exact .inr ⟨t, by omega, h⟩

/-- What `VU.DEC` answers: the sum of the groups up to the first byte that ends them, or the failure. -/
theorem vuResponse_cases (s : List Byte) :
    ((∀ k, k < min s.length 10 → (s.getD k 0).getLsbD 7 = true) ∧
      vuResponse s = .failure .unterminatedVaruint) ∨
    ∃ t, t < min s.length 10 ∧ (s.getD t 0).getLsbD 7 = false ∧ (∀ k, k < t → (s.getD k 0).getLsbD 7 = true) ∧
      vuResponse s = .successVar (BitVec.ofNat 64 (vuSum s (t + 1))) (t + 1) := by
  rcases vuFirst s (min s.length 10) with h | ⟨t, ht, hend, hgo⟩
  · exact .inl ⟨h, by rw [vuResponse, Config.vuScanMax, vuScan_none 10 0 0 s h]⟩
  · refine .inr ⟨t, ht, hend, hgo, ?_⟩
    have := vuScan_at s t 10 0 0 (by simp) ht hend hgo
    rw [vuResponse, Config.vuScanMax, show (0 : BitVec 64) = BitVec.ofNat 64 0 from rfl, this]
    simp

end Sys2Proof.Machine
end

