-- ==== Sys2Proof/Laws/Step.lean ====
section
/-! SUPPORT. What a step and a command can do, each said once. -/

namespace Sys2Proof.Machine

/-- Everything a step that answers a next state has done. -/
theorem step_cases {s t : State} (h : step s = .next t) :
    (s.pending = [] ∧ t = s) ∨
    (∃ rest, s.pending = .reset :: rest ∧ t = { s with pending := rest }.resetBlock) ∨
    (∃ w operand rest i, s.pending = .command w operand :: rest ∧ decode w operand = .ok i ∧
      exec i { s with pending := rest } = .next t) ∨
    (∃ w operand rest e, s.pending = .command w operand :: rest ∧ decode w operand = .error e ∧
      t = { s with pending := rest }.illegalCommand) := by
  rcases hp : s.pending with _ | ⟨⟨w, operand⟩ | _, rest⟩
  · refine .inl ⟨rfl, ?_⟩
    simpa [step, State.takeEvent, hp, State.idle] using h.symm
  · rcases hd : decode w operand with e | i
    · refine .inr (.inr (.inr ⟨w, operand, rest, e, rfl, hd, ?_⟩))
      simpa [step, State.takeEvent, hp, hd] using h.symm
    · refine .inr (.inr (.inl ⟨w, operand, rest, i, rfl, hd, ?_⟩))
      simpa [step, State.takeEvent, hp, hd] using h
  · refine .inr (.inl ⟨rest, rfl, ?_⟩)
    simpa [step, State.takeEvent, hp] using h.symm

/-- The steps of an EG read command, as a function of unit EG alone. -/
def egSteps : Instr → EgReader → Attempt EgReader (BitVec 32)
  | .egRdbit, r => (egBit r).map fun b => (BitVec.ofBool b).setWidth 32
  | .egRdbits n, r => egReadField n r
  | .egRdue, r => egDecodeUe r
  | .egRdse, r => egDecodeSe r
  | .egSkue, r => (egDecodeUe r).map fun _ => 0
  | .egSkse, r => (egDecodeSe r).map fun _ => 0
  | .egInit p, _ => .done 0 (.construct p)
  | .avInit _, r => .done 0 r
  | .avRdbit, r => .done 0 r
  | .avRdbits _, r => .done 0 r
  | .vuDec _, r => .done 0 r

/-- The steps of an AV command, as a function of unit AV alone. -/
def avSteps : Instr → AvReader → Attempt AvReader (BitVec 64)
  | .avRdbit, r => (avBit r).map fun b => (BitVec.ofBool b).setWidth 64
  | .avRdbits n, r => avReadField n r
  | .avInit p, _ => .done 0 (.construct p)
  | .egInit _, r => .done 0 r
  | .egRdbit, r => .done 0 r
  | .egRdbits _, r => .done 0 r
  | .egRdue, r => .done 0 r
  | .egRdse, r => .done 0 r
  | .egSkue, r => .done 0 r
  | .egSkse, r => .done 0 r
  | .vuDec _, r => .done 0 r

/-- A command of unit EG is its steps over that unit, and then the answer. -/
theorem exec_eg {i : Instr} (h : i.unit = .eg) (s : State) : exec i s = s.finishEg (egSteps i s.eg) := by
  cases i <;> first | rfl | cases h

/-- A command of unit AV is its steps over that unit, and then the answer. -/
theorem exec_av {i : Instr} (h : i.unit = .av) (s : State) : exec i s = s.finishAv (avSteps i s.av) := by
  cases i <;> first | rfl | cases h

/-- The command of unit VU answers a function of its operand, and changes no unit. -/
theorem exec_vu (bytes : List Byte) (s : State) : exec (.vuDec bytes) s = .next (s.respond (vuResponse bytes)) := rfl

end Sys2Proof.Machine
end

