-- ==== Sys2Proof/Machine/Assembly.lean ====
section
/-! DEFINITION. The assembly text of a command (spec/30_encoding.md R59): the mnemonic, then for `RDBITS` the bit count
in decimal, then for `INIT` and `VU.DEC` the operand bytes in square brackets, in hexadecimal, separated by commas; a
comment runs from `;` to the end of the line. What R59 leaves open of the reader's side (blanks, the case of hexadecimal
digits) is in notes/assumptions/17.md. The block itself never sees this text. -/

namespace Sys2Proof.Machine

/-- The hexadecimal digits, by value. -/
def hexDigits : List Char :=
  ['0', '1', '2', '3', '4', '5', '6', '7', '8', '9', 'A', 'B', 'C', 'D', 'E', 'F']

/-- A byte in hexadecimal, as `0xAC`. -/
def printByte (b : Byte) : List Char :=
  ['0', 'x', hexDigits.getD (b.toNat / 16) '0', hexDigits.getD (b.toNat % 16) '0']

/-- The bytes after the first one, each after a comma. -/
def printMoreBytes : List Byte → List Char
  | [] => []
  | b :: bs => [',', ' '] ++ printByte b ++ printMoreBytes bs

/-- A byte sequence in square brackets, as `[0xAC, 0x02]`. -/
def printBytes : List Byte → List Char
  | [] => ['[', ']']
  | b :: bs => ['['] ++ printByte b ++ printMoreBytes bs ++ [']']

/-- What stands after the mnemonic of a command (R59). -/
def printOperand : Instr → List Char
  | .egInit p => ' ' :: printBytes p
  | .egRdbit => []
  | .egRdbits n => ' ' :: Nat.toDigits 10 n
  | .egRdue => []
  | .egRdse => []
  | .egSkue => []
  | .egSkse => []
  | .avInit p => ' ' :: printBytes p
  | .avRdbit => []
  | .avRdbits n => ' ' :: Nat.toDigits 10 n
  | .vuDec s => ' ' :: printBytes s

/-- The line that writes a command (R59). -/
def printCommand (i : Instr) : List Char := i.mnemonic.toList ++ printOperand i

/-- The text without blanks at its ends. -/
def trimBlanks (cs : List Char) : List Char :=
  ((cs.dropWhile (· == ' ')).reverse.dropWhile (· == ' ')).reverse

/-- The text before a comment (R59). -/
def dropComment (cs : List Char) : List Char := cs.takeWhile (· != ';')

/-- The value of a decimal numeral read after the digits worth `acc`. -/
def parseDigits : Nat → List Char → Option Nat
  | acc, [] => some acc
  | acc, c :: cs => if c.isDigit then parseDigits (10 * acc + (c.toNat - 48)) cs else none

/-- A bit count: a decimal number from 0 to 255 (R59). -/
def parseCount (cs : List Char) : Option Nat :=
  match cs with
  | [] => none
  | c :: rest => (parseDigits 0 (c :: rest)).bind fun n => if n ≤ 255 then some n else none

/-- The value of a hexadecimal digit, in either case. -/
def parseHexDigit (c : Char) : Option Nat := hexDigits.findIdx? (· == c.toUpper)

/-- A byte in hexadecimal: `0x` and two digits. -/
def parseByte (cs : List Char) : Option Byte :=
  match trimBlanks cs with
  | ['0', 'x', hi, lo] =>
    (parseHexDigit hi).bind fun h => (parseHexDigit lo).map fun l => BitVec.ofNat 8 (16 * h + l)
  | _ => none

/-- The bytes of the text up to the closing bracket; `field` holds the characters of the byte being read. -/
def parseByteList : List Char → List Char → Option (List Byte)
  | _, [] => none
  | field, c :: cs =>
    if c = ']' then
      if trimBlanks cs = [] then (parseByte field).map fun b => [b] else none
    else if c = ',' then
      (parseByte field).bind fun b => (parseByteList [] cs).map fun bs => b :: bs
    else parseByteList (field ++ [c]) cs

/-- A byte sequence in square brackets (R59). -/
def parseBytes (cs : List Char) : Option (List Byte) :=
  match trimBlanks cs with
  | '[' :: rest => if trimBlanks rest = [']'] then some [] else parseByteList [] rest
  | _ => none

/-- A command without operand: nothing stands after the mnemonic. -/
def parseNothing (i : Instr) (cs : List Char) : Option Instr := if cs = [] then some i else none

/-- The forms of R59: the mnemonic and how its operand is read. -/
def assemblyForms : List (List Char × (List Char → Option Instr)) :=
  [ ("EG.INIT".toList, fun cs => (parseBytes cs).map .egInit),
    ("EG.RDBIT".toList, parseNothing .egRdbit),
    ("EG.RDBITS".toList, fun cs => (parseCount cs).map .egRdbits),
    ("EG.RDUE".toList, parseNothing .egRdue),
    ("EG.RDSE".toList, parseNothing .egRdse),
    ("EG.SKUE".toList, parseNothing .egSkue),
    ("EG.SKSE".toList, parseNothing .egSkse),
    ("AV.INIT".toList, fun cs => (parseBytes cs).map .avInit),
    ("AV.RDBIT".toList, parseNothing .avRdbit),
    ("AV.RDBITS".toList, fun cs => (parseCount cs).map .avRdbits),
    ("VU.DEC".toList, fun cs => (parseBytes cs).map .vuDec) ]

/-- The command a line writes (R59), or nothing. -/
def parseCommand (line : List Char) : Option Instr :=
  let text := trimBlanks (dropComment line)
  let name := text.takeWhile fun c => c != ' ' && c != '['
  (assemblyForms.lookup name).bind fun read => read (trimBlanks (text.drop name.length))

end Sys2Proof.Machine
end

