-- ==== Sys2Proof/Tests/Slice0.lean ====
section
/-! SUPPORT. Tests on fixed values, and for every statement of Certificates/Slice0/Obligations.lean that has hypotheses a
concrete case that meets them, at the boundary values of its clauses. Expected results are the spec's own: the words are
written out from spec/30_encoding.md R51 and R52, and the vectors named V-... and S... are those of
spec/95_test_vectors.md. -/

namespace Sys2Proof.Tests

open Sys2Proof Sys2Proof.Machine

/-! ### Helpers -/

/-- Both readers over the payload, both at the global bit position `p`. -/
def readersAt (payload : List Byte) (p : Nat) : State :=
  { eg := { buf := Memory.ofBytes payload, len := payload.length, pos := p },
    av := { buf := Memory.ofBytes payload, len := payload.length, byte := p / 8, bit := Fin.ofNat 8 p },
    pending := [], responses := [] }

/-- The same, with one event presented. -/
def presenting (payload : List Byte) (p : Nat) (e : HostEvent) : State := { readersAt payload p with pending := [e] }

/-- What a step shows: the last response, `EG.POS`, `AV.BYTE` and `AV.BIT`. -/
def shows : Host.Outcome State Fault Refusal → Option (Option Response × Nat × Nat × Nat)
  | .next t => some (t.responses.getLast?, t.eg.pos, t.av.byte, t.av.bit.val)
  | .fault _ => none
  | .refused _ => none

/-- The word is issued, with the operand, on readers over the payload at the position. -/
def issue (w : CmdWord) (operand payload : List Byte) (p : Nat) : Option (Option Response × Nat × Nat × Nat) :=
  shows (step (presenting payload p (.command w operand)))

/-- 31 zeros, a one, 31 ones and one bit more: the longest code of the largest value (V-UE-18). -/
def longestCode : List Byte := [0x00, 0x00, 0x00, 0x01, 0xFF, 0xFF, 0xFF, 0xFE]

/-! ### Well-formedness: each check refuses an ill-formed command -/

theorem test_wf_refuses_eg_count_256 : (Instr.egRdbits 256).wf = false := by decide
theorem test_wf_refuses_av_count_256 : (Instr.avRdbits 256).wf = false := by decide
theorem test_wf_admits_count_255 : (Instr.egRdbits 255).wf = true ∧ (Instr.avRdbits 255).wf = true := by decide
theorem test_wf_within_refuses_long_payload :
    (Instr.egInit [1, 2, 3]).wfWithin 2 = false ∧ (Instr.avInit [1, 2, 3]).wfWithin 2 = false := by decide
theorem test_wf_within_admits_full_payload :
    (Instr.egInit [1, 2]).wfWithin 2 = true ∧ (Instr.vuDec [1, 2, 3]).wfWithin 2 = true := by decide

/-! ### Decoding: words written out as `UNIT OP RSV N` from R51 and R52 -/

theorem test_decode_eg_init : decode 0b00_001_000_00000000#16 [0x40] = .ok (.egInit [0x40]) := by decide
theorem test_decode_eg_rdbit : decode 0b00_010_000_00000000#16 [] = .ok .egRdbit := by decide
theorem test_decode_eg_rdbits : decode 0b00_011_000_00100001#16 [] = .ok (.egRdbits 33) := by decide
theorem test_decode_eg_rdue : decode 0b00_100_000_00000000#16 [] = .ok .egRdue := by decide
theorem test_decode_eg_rdse : decode 0b00_101_000_00000000#16 [] = .ok .egRdse := by decide
theorem test_decode_eg_skue : decode 0b00_110_000_00000000#16 [] = .ok .egSkue := by decide
theorem test_decode_eg_skse : decode 0b00_111_000_00000000#16 [] = .ok .egSkse := by decide
theorem test_decode_av_init : decode 0b01_001_000_00000000#16 [0xA7] = .ok (.avInit [0xA7]) := by decide
theorem test_decode_av_rdbit : decode 0b01_010_000_00000000#16 [] = .ok .avRdbit := by decide
theorem test_decode_av_rdbits : decode 0b01_011_000_11111111#16 [] = .ok (.avRdbits 255) := by decide
theorem test_decode_vu_dec : decode 0b10_001_000_00000000#16 [0xAC, 0x02] = .ok (.vuDec [0xAC, 0x02]) := by decide

/-- V-IL-01 to V-IL-15. -/
theorem test_decode_illegal_words :
    ([0x0000, 0xC000, 0xFFFF, 0x1001, 0x1900, 0x2001, 0x0801, 0x4000, 0x6000, 0x7800, 0x5C08, 0x8000, 0x9000, 0x8801,
      0x8900] : List CmdWord).any legalWord = false := by decide

/-- The words at the edge of the legal space (spec/95_test_vectors.md section 2.10). -/
theorem test_decode_edge_words :
    ([0x1800, 0x1820, 0x18FF, 0x5840, 0x58FF] : List CmdWord).all legalWord = true := by decide

theorem test_table_word : decodeTableWord 16 0x1808 = some (.egRdbits 8) ∧ decodeTableWord 16 0x1900 = none := by decide

theorem test_fetch_word : shows (step (State.reset.withFetchWord 16 0x1800)) = some (some ⟨true, .none, 0, 0⟩, 0, 0, 0) := by
  decide

/-! ### One step of each command -/

/-- V-IN-06. -/
theorem test_eg_init : issue 0x0800 [0x60] [0xB5, 0x3C] 16 = some (some ⟨true, .none, 0, 0⟩, 0, 2, 0) := by decide
/-- V-BIT-02. -/
theorem test_eg_rdbit : issue 0x1000 [] [0x40] 1 = some (some ⟨true, .none, 1, 0⟩, 2, 0, 1) := by decide
/-- V-BIT-04. -/
theorem test_eg_rdbit_end : issue 0x1000 [] [0x01] 8 = some (some ⟨false, .exhausted, 0, 0⟩, 8, 1, 0) := by decide
/-- V-EGB-13. -/
theorem test_eg_rdbits : issue 0x1820 [] [0xDE, 0xAD, 0xBE, 0xEF, 0x55] 4 =
    some (some ⟨true, .none, 0xEADBEEF5, 0⟩, 36, 0, 4) := by decide
/-- V-EGB-06. -/
theorem test_eg_rdbits_short : issue 0x1808 [] [0xB5, 0x3C] 12 = some (some ⟨false, .exhausted, 0, 0⟩, 16, 1, 4) := by
  decide
/-- V-UE-16. -/
theorem test_eg_rdue : issue 0x2000 [] [0xA6] 1 = some (some ⟨true, .none, 1, 0⟩, 4, 0, 1) := by decide
/-- V-UE-25. -/
theorem test_eg_rdue_malformed : issue 0x2000 [] [0x80, 0x00, 0x00, 0x00, 0x00] 1 =
    some (some ⟨false, .malformedCode, 0, 0⟩, 33, 0, 1) := by decide
/-- V-SE-05. -/
theorem test_eg_rdse : issue 0x2800 [] [0x28] 0 = some (some ⟨true, .none, 0xFFFFFFFE, 0⟩, 5, 0, 0) := by decide
/-- V-SE-10. -/
theorem test_eg_rdse_least : issue 0x2800 [] longestCode 0 = some (some ⟨true, .none, 0x80000001, 0⟩, 63, 0, 0) := by
  decide
/-- V-SK-01. -/
theorem test_eg_skue : issue 0x3000 [] [0x38] 0 = some (some ⟨true, .none, 0, 0⟩, 5, 0, 0) := by decide
/-- V-SK-02. -/
theorem test_eg_skse : issue 0x3800 [] [0x28] 0 = some (some ⟨true, .none, 0, 0⟩, 5, 0, 0) := by decide
/-- V-SK-04. -/
theorem test_eg_skse_malformed : issue 0x3800 [] [0x00, 0x00, 0x00, 0x00] 0 =
    some (some ⟨false, .malformedCode, 0, 0⟩, 32, 0, 0) := by decide
/-- V-IN-08. -/
theorem test_av_init : issue 0x4800 [0xA7] [0x40] 2 = some (some ⟨true, .none, 0, 0⟩, 2, 0, 0) := by decide
/-- V-AVB-06. -/
theorem test_av_rdbit : issue 0x5000 [] [0xA7, 0x40] 7 = some (some ⟨true, .none, 1, 0⟩, 7, 1, 0) := by decide
/-- V-AV-01, S10. -/
theorem test_av_rdbits_short : issue 0x5809 [] [0xA7] 0 = some (some ⟨false, .exhausted, 0, 0⟩, 0, 1, 0) := by decide
/-- V-AV-12. -/
theorem test_av_rdbits : issue 0x5840 [] [0x12, 0x34, 0x56, 0x78, 0x9A, 0xBC, 0xDE, 0xF0, 0xFF] 4 =
    some (some ⟨true, .none, 0x23456789ABCDEF0F, 0⟩, 4, 8, 4) := by decide +kernel
/-- V-VU-04, S8. -/
theorem test_vu_dec : issue 0x8800 [0xAC, 0x02] [0x40] 3 = some (some ⟨true, .none, 300, 2⟩, 3, 0, 3) := by decide
/-- V-VU-13: the tenth byte's bit 1 is dropped. -/
theorem test_vu_dec_tenth_byte :
    issue 0x8800 [0xFF, 0xFF, 0xFF, 0xFF, 0xFF, 0xFF, 0xFF, 0xFF, 0xFF, 0x02] [] 0 =
      some (some ⟨true, .none, 0x7FFFFFFFFFFFFFFF, 10⟩, 0, 0, 0) := by decide
/-- V-IL-14. -/
theorem test_illegal_word : issue 0x8801 [0x05] [0x40] 1 = some (some ⟨false, .illegalCommand, 0, 0⟩, 1, 0, 1) := by decide
/-- spec/70_reset_and_hazards.md R150. -/
theorem test_reset_event : shows (step (presenting [0x40] 3 .reset)) = some (none, 0, 0, 0) := by decide
/-- V-EGB-12 is refused for its width, V-AV-22 is not: the bounds of the two readers are apart. -/
theorem test_widths_apart :
    issue 0x1821 [] [0xDE, 0xAD, 0xBE, 0xEF, 0x55] 0 = some (some ⟨false, .invalidWidth, 0, 0⟩, 0, 0, 0) ∧
    issue 0x5821 [] [0x12, 0x34, 0x56, 0x78, 0x9A] 0 = some (some ⟨true, .none, 0x2468ACF1, 0⟩, 0, 4, 1) := by
  decide

/-! ### The assembly text of R59: its own examples -/

theorem test_assembly_init : parseCommand "EG.INIT [0x40]".toList = some (.egInit [0x40]) := by decide
theorem test_assembly_rdbits : parseCommand "AV.RDBITS 64 ; the widest".toList = some (.avRdbits 64) := by decide
theorem test_assembly_rdue : parseCommand "EG.RDUE".toList = some .egRdue := by decide
theorem test_assembly_vu_dec : parseCommand "VU.DEC [0xAC, 0x02]".toList = some (.vuDec [0xAC, 0x02]) := by decide
theorem test_assembly_count_256 : parseCommand "EG.RDBITS 256".toList = none := by decide
theorem test_assembly_print : printCommand (.vuDec [0xAC, 0x02]) = "VU.DEC [0xAC, 0x02]".toList := by decide

/-! ### Concrete cases that meet the hypotheses of the statements

Each theorem is named after its statement. -/

theorem witness_StepRunsTheDecodedCommand :
    (presenting [0x40] 1 (.command 0x1820 [])).pending = .command 0x1820 [] :: [] ∧
    decode 0x1820 [] = .ok (.egRdbits 32) := by decide

theorem witness_IllegalWordIsAnsweredAndChangesNothing :
    (presenting [0x40] 1 (.command 0x1900 [])).pending = .command 0x1900 [] :: [] ∧ legalWord 0x1900 = false := by decide

theorem witness_NothingHappensUnlessPresented : (readersAt [0x40] 1).pending = [] := rfl

theorem witness_ResetEventEmptiesBothReaders : (presenting [0x40] 1 .reset).pending = .reset :: [] := rfl

/-- The three outcomes of the two `RDBITS`: `n` at 0, at the bound and past it. -/
theorem witness_ReadsBeforeInitFindAnEmptyPayload :
    State.reset.eg = State.reset.eg ∧ State.reset.av = State.reset.av ∧
    ([Instr.egRdbits 0, .egRdbits 32, .egRdbits 33, .avRdbits 64, .avRdbits 65].map fun i =>
        shows (exec i State.reset)) =
      [some (some ⟨true, .none, 0, 0⟩, 0, 0, 0), some (some ⟨false, .exhausted, 0, 0⟩, 0, 0, 0),
        some (some ⟨false, .invalidWidth, 0, 0⟩, 0, 0, 0), some (some ⟨false, .exhausted, 0, 0⟩, 0, 0, 0),
        some (some ⟨false, .invalidWidth, 0, 0⟩, 0, 0, 0)] := ⟨rfl, rfl, by decide⟩

theorem witness_DecodeOfEncodeIsTheCommand : (Instr.egRdbits 255).wf = true ∧ (Instr.vuDec [0xAC, 0x02]).wf = true := by
  decide

/-- The operand is kept by the first word, ignored by the second. -/
theorem witness_EncodeOfDecodeIsTheWord :
    decode 0x8800 [0x05] = .ok (.vuDec [0x05]) ∧ decode 0x58FF [0x05] = .ok (.avRdbits 255) := by decide

theorem witness_SuperfluousOperandIsIgnored :
    decode 0x58FF [] = .ok (.avRdbits 255) ∧ (∀ payload, Instr.avRdbits 255 ≠ .egInit payload) ∧
    (∀ payload, Instr.avRdbits 255 ≠ .avInit payload) ∧ ∀ bytes, Instr.avRdbits 255 ≠ .vuDec bytes :=
  ⟨by decide, fun _ => by simp, fun _ => by simp, fun _ => by simp⟩

/-- The last bit of the payload: both readers are at it. -/
theorem witness_BitsAreConsumedMostSignificantFirst :
    7 < 8 * ([0x01] : List Byte).length ∧
    (readersAt [0x01] 7).eg = { buf := Memory.ofBytes [0x01], len := ([0x01] : List Byte).length, pos := 7 } ∧
    (readersAt [0x01] 7).av =
      { buf := Memory.ofBytes [0x01], len := ([0x01] : List Byte).length, byte := 7 / 8, bit := Fin.ofNat 8 7 } := by
  decide

/-- At the end, and at the last bit. -/
theorem witness_EgRdbitReadsTheNextBit :
    (readersAt [0x01] 8).eg.Legal ∧ (readersAt [0x01] 8).eg.pos = 8 * (readersAt [0x01] 8).eg.len ∧
    (readersAt [0x01] 7).eg.Legal ∧ (readersAt [0x01] 7).eg.pos < 8 * (readersAt [0x01] 7).eg.len := by decide

/-- Width 33; widths 32 and 0 with exactly the bits that are there; one bit fewer than asked. -/
theorem witness_EgRdbitsReadsABigEndianField :
    255 < 256 ∧ (∀ p ∈ [0, 1, 32], (readersAt [1, 2, 3, 4] p).eg.Legal) ∧ 32 < 33 ∧
    (32 ≤ 32 ∧ 32 ≤ 8 * (readersAt [1, 2, 3, 4] 0).eg.len - (readersAt [1, 2, 3, 4] 0).eg.pos) ∧
    (0 ≤ 32 ∧ 0 ≤ 8 * (readersAt [1, 2, 3, 4] 32).eg.len - (readersAt [1, 2, 3, 4] 32).eg.pos) ∧
    (32 ≤ 32 ∧ 8 * (readersAt [1, 2, 3, 4] 1).eg.len - (readersAt [1, 2, 3, 4] 1).eg.pos < 32) := by decide

/-- Case A with nothing after the 32nd zero; case B with 31 zeros, and with none; case C one bit short of the longest
code; case D with the longest code and with the shortest, each ending the payload or one bit before its end. -/
theorem witness_EgRdueHasFourOutcomes :
    (readersAt [0, 0, 0, 0] 0).eg.Legal ∧ (readersAt [0, 0, 0, 0] 0).eg.zeros = 32 ∧
    (readersAt [0, 0, 0, 0] 1).eg.Legal ∧ (readersAt [0, 0, 0, 0] 1).eg.zeros = 31 ∧
      1 + 31 = 8 * (readersAt [0, 0, 0, 0] 1).eg.len ∧
    (readersAt [0x40] 8).eg.Legal ∧ (readersAt [0x40] 8).eg.zeros = 0 ∧ 8 + 0 = 8 * (readersAt [0x40] 8).eg.len ∧
    (readersAt [0x08] 0).eg.Legal ∧ (readersAt [0x08] 0).eg.zeros = 4 ∧
      0 + 4 < 8 * (readersAt [0x08] 0).eg.len ∧ 8 * (readersAt [0x08] 0).eg.len < 0 + 2 * 4 + 1 ∧
    (readersAt longestCode 0).eg.Legal ∧ (readersAt longestCode 0).eg.zeros = 31 ∧
      0 + 2 * 31 + 1 ≤ 8 * (readersAt longestCode 0).eg.len ∧
    (readersAt [0x01] 7).eg.Legal ∧ (readersAt [0x01] 7).eg.zeros = 0 ∧
      7 + 2 * 0 + 1 ≤ 8 * (readersAt [0x01] 7).eg.len := by decide

/-- The unsigned code fails in both ways, and is 0, odd and even, the largest value among them. -/
theorem witness_EgRdseMapsTheUnsignedCode :
    (readersAt [0, 0, 0, 0] 0).eg.Legal ∧ (readersAt [0, 0, 0, 0] 0).eg.ueKind = .malformedCode ∧
    (readersAt [0x40] 8).eg.Legal ∧ (readersAt [0x40] 8).eg.ueKind = .exhausted ∧
    (readersAt [0x80] 0).eg.Legal ∧ (readersAt [0x80] 0).eg.ueKind = .none ∧ (readersAt [0x80] 0).eg.ueValue = 0 ∧
    (readersAt [0x40] 0).eg.Legal ∧ (readersAt [0x40] 0).eg.ueKind = .none ∧ (readersAt [0x40] 0).eg.ueValue = 1 ∧
    (readersAt longestCode 0).eg.Legal ∧ (readersAt longestCode 0).eg.ueKind = .none ∧
      (readersAt longestCode 0).eg.ueValue = 2 ^ 32 - 2 := by decide

theorem witness_EgSkueSkipsTheUnsignedCode : (readersAt [0x38] 0).eg.Legal ∧ (readersAt [0x38] 8).eg.Legal := by decide

theorem witness_EgSkseSkipsTheSignedCode : (readersAt [0x28] 0).eg.Legal ∧ (readersAt [0x28] 8).eg.Legal := by decide

/-- A success with an odd value and with an even one, and a failure. -/
theorem witness_EgRdseEndsAsEgRdueDoes :
    (∃ t, exec .egRdue (readersAt [0x40] 0) = .next t ∧ t.responses = [] ++ [⟨true, .none, 1, 0⟩]) ∧
    (∃ t, exec .egRdue (readersAt [0x60] 0) = .next t ∧ t.responses = [] ++ [⟨true, .none, 2, 0⟩]) ∧
    ∃ t, exec .egRdue (readersAt [0x40] 8) = .next t ∧ t.responses = [] ++ [⟨false, .exhausted, 0, 0⟩] :=
  ⟨⟨_, rfl, by decide⟩, ⟨_, rfl, by decide⟩, _, rfl, by decide⟩

theorem witness_EgSkueEndsAsEgRdueDoes :
    ∃ t, exec .egRdue (readersAt [0x38] 0) = .next t ∧ t.responses = [] ++ [⟨true, .none, 6, 0⟩] :=
  ⟨_, rfl, by decide⟩

/-- A success, a malformed code and an exhausted payload. -/
theorem witness_EgRdueValueMatchesItsLength :
    (∃ t, exec .egRdue (readersAt [0x40] 0) = .next t ∧ t.eg.pos = 0 + 2 * 1 + 1) ∧
    (∃ t, exec .egRdue (readersAt [0, 0, 0, 0] 0) = .next t ∧ t.eg.pos = 0 + 32) ∧
    ∃ t, exec .egRdue (readersAt [0x40] 8) = .next t ∧ 8 * t.eg.len ≤ t.eg.pos := by
  exact ⟨⟨_, rfl, by decide⟩, ⟨_, rfl, by decide⟩, _, rfl, by decide⟩

/-- The code of 0 and the code of the largest value stand at position 0. -/
theorem witness_EgRdueDecodesTheCodeOfEveryValue :
    (0 ≤ 2 ^ 32 - 2 ∧ (readersAt [0x80] 0).eg.Spells (ueCode 0)) ∧
    2 ^ 32 - 2 ≤ 2 ^ 32 - 2 ∧ (readersAt longestCode 0).eg.Spells (ueCode (2 ^ 32 - 2)) := by
  unfold EgReader.Spells
  decide

/-- The least signed value, 0 and the greatest: the codes of `2^32 - 2`, 0 and `2^32 - 3`. -/
theorem witness_EgRdseDecodesTheCodeOfEverySignedValue :
    (-(2 ^ 31 - 1 : Int) ≤ -(2 ^ 31 - 1) ∧
      (readersAt longestCode 0).eg.Spells (ueCode (2 * (-(-(2 ^ 31 - 1 : Int))).toNat))) ∧
    (readersAt [0x80] 0).eg.Spells (ueCode (2 * (-(0 : Int)).toNat)) ∧
    (0 : Int) < 2 ^ 31 - 1 ∧
      (readersAt [0x00, 0x00, 0x00, 0x01, 0xFF, 0xFF, 0xFF, 0xFC] 0).eg.Spells
        (ueCode (2 * (2 ^ 31 - 1 : Int).toNat - 1)) := by
  unfold EgReader.Spells
  decide

theorem witness_EgRdbitsSplits :
    (readersAt [1, 2, 3, 4] 0).eg.Legal ∧ 20 + 12 ≤ 32 ∧
    20 + 12 ≤ 8 * (readersAt [1, 2, 3, 4] 0).eg.len - (readersAt [1, 2, 3, 4] 0).eg.pos := by decide

/-- At the end; at bit 7 of a byte; at bit 0. -/
theorem witness_AvRdbitReadsTheNextBit :
    (readersAt [0xA7] 8).av.Legal ∧ (readersAt [0xA7] 8).av.byte = (readersAt [0xA7] 8).av.len ∧
    (readersAt [0xA7] 7).av.Legal ∧ (readersAt [0xA7] 7).av.byte < (readersAt [0xA7] 7).av.len ∧
      (readersAt [0xA7] 7).av.bit = 7 ∧
    (readersAt [0xA7] 0).av.Legal ∧ (readersAt [0xA7] 0).av.byte < (readersAt [0xA7] 0).av.len ∧
      (readersAt [0xA7] 0).av.bit ≠ 7 := by decide

/-- Width 65; widths 64 and 0 with exactly the bits that are there; one bit fewer than asked. -/
theorem witness_AvRdbitsReadsABigEndianField :
    255 < 256 ∧ (∀ p ∈ [0, 1, 64], (readersAt [1, 2, 3, 4, 5, 6, 7, 8] p).av.Legal) ∧ 64 < 65 ∧
    (64 ≤ 64 ∧ 64 ≤ 8 * (readersAt [1, 2, 3, 4, 5, 6, 7, 8] 0).av.len - (8 * 0 + 0)) ∧
    (readersAt [1, 2, 3, 4, 5, 6, 7, 8] 64).av.globalPos = 8 * (readersAt [1, 2, 3, 4, 5, 6, 7, 8] 64).av.len ∧
    (readersAt [1, 2, 3, 4, 5, 6, 7, 8] 1).av.globalPos = 1 ∧
    8 * (readersAt [1, 2, 3, 4, 5, 6, 7, 8] 1).av.len - 1 < 64 := by decide

theorem witness_AvStepIsTheGlobalIndexStep :
    (readersAt [0xA7] 8).av.Legal ∧ (readersAt [0xA7] 8).av.globalPos = 8 * (readersAt [0xA7] 8).av.len ∧
    (readersAt [0xA7] 7).av.Legal ∧ (readersAt [0xA7] 7).av.globalPos < 8 * (readersAt [0xA7] 7).av.len := by decide

theorem witness_AvRdbitsSplits :
    (readersAt [1, 2, 3, 4, 5, 6, 7, 8] 0).av.Legal ∧ 40 + 24 ≤ 64 ∧
    40 + 24 ≤ 8 * (readersAt [1, 2, 3, 4, 5, 6, 7, 8] 0).av.len -
      (readersAt [1, 2, 3, 4, 5, 6, 7, 8] 0).av.globalPos := by decide

theorem witness_TheTwoReadersAgree :
    (readersAt [0xA7] 3).eg.Legal ∧ (readersAt [0xA7] 3).av.Legal ∧
    (readersAt [0xA7] 3).av.buf = (readersAt [0xA7] 3).eg.buf ∧ (readersAt [0xA7] 3).av.len = (readersAt [0xA7] 3).eg.len ∧
    (readersAt [0xA7] 3).av.globalPos = (readersAt [0xA7] 3).eg.pos ∧ 32 ≤ 32 := by decide

/-- No byte; ten bytes that all go on; the first byte ends; the tenth byte ends. -/
theorem witness_VuDecSumsTheGroups :
    (∀ i, i < min ([] : List Byte).length 10 → 128 ≤ (([] : List Byte).getD i 0).toNat) ∧
    (∀ i, i < min (List.replicate 10 (0x80 : Byte)).length 10 →
      128 ≤ ((List.replicate 10 (0x80 : Byte)).getD i 0).toNat) ∧
    (0 < min ([0x7F] : List Byte).length 10 ∧ (([0x7F] : List Byte).getD 0 0).toNat < 128 ∧
      ∀ i, i < 0 → 128 ≤ (([0x7F] : List Byte).getD i 0).toNat) ∧
    9 < min (List.replicate 9 (0xFF : Byte) ++ [0x7F]).length 10 ∧
      ((List.replicate 9 (0xFF : Byte) ++ [0x7F]).getD 9 0).toNat < 128 ∧
      ∀ i, i < 9 → 128 ≤ ((List.replicate 9 (0xFF : Byte) ++ [0x7F]).getD i 0).toNat := by decide

/-- Nine bytes and ten bytes consumed (V-VU-21, V-VU-11). -/
theorem witness_VuDecSuccessReadsItsBytesOnly :
    (∃ t, exec (.vuDec (List.replicate 8 0xFF ++ [0x7F])) State.reset = .next t ∧
      t.responses = State.reset.responses ++ [⟨true, .none, 0x7FFFFFFFFFFFFFFF, 9⟩]) ∧
    ∃ t, exec (.vuDec (List.replicate 9 0xFF ++ [0x01])) State.reset = .next t ∧
      t.responses = State.reset.responses ++ [⟨true, .none, 0xFFFFFFFFFFFFFFFF, 10⟩] :=
  ⟨⟨_, rfl, by decide⟩, _, rfl, by decide +kernel⟩

theorem witness_VuDecDecodesEveryMinimalEncoding : 2 ^ 64 - 1 < 2 ^ 64 ∧ 0 < 2 ^ 64 := by decide

/-- Two bytes and the count 2; eleven bytes, ten lanes and the count 15. -/
theorem witness_VuDecWindowIsEquivalent :
    ((∀ i (h : i < 10), i < ([0xAC, 0x02] : List Byte).length →
        (VuWindow.ofBytes [0xAC, 0x02]).lanes[i] = ([0xAC, 0x02] : List Byte).getD i 0) ∧
      (VuWindow.ofBytes [0xAC, 0x02]).avail.toNat = min ([0xAC, 0x02] : List Byte).length 10) ∧
    (∀ i (h : i < 10), i < (List.replicate 11 (0x80 : Byte)).length →
        (VuWindow.mk (Vector.replicate 10 0x80) 15).lanes[i] = (List.replicate 11 (0x80 : Byte)).getD i 0) ∧
      10 ≤ (List.replicate 11 (0x80 : Byte)).length ∧ 10 ≤ (VuWindow.mk (Vector.replicate 10 0x80) 15).avail.toNat := by
  decide

theorem witness_EveryCommandIsAnsweredOnce :
    (presenting [0x40] 8 (.command 0x2000 [])).Legal ∧
    (presenting [0x40] 8 (.command 0x2000 [])).pending = .command 0x2000 [] :: [] ∧
    (presenting [0x40] 8 (.command 0xFFFF [])).Legal ∧
    (presenting [0x40] 8 (.command 0xFFFF [])).pending = .command 0xFFFF [] :: [] := by decide

theorem witness_CommandsReportOnlyTheirKinds : ∃ t, exec (.egRdbits 33) (readersAt [0x40] 0) = .next t := ⟨_, rfl⟩

/-- A failure, a skip, an `INIT`, a read of each reader and a success of unit VU. -/
theorem witness_ResponseFieldsHoldTheirRanges :
    ∀ i ∈ [Instr.egRdbits 33, .egSkue, .avInit [0xA7], .egRdse, .avRdbits 8, .vuDec [0x05]],
      (shows (exec i (readersAt [0x60] 0))).isSome = true := by decide

theorem witness_ExhaustedReaderRestsAtTheEnd :
    (readersAt [0xB5] 4).Legal ∧
    (∃ t, exec (.egRdbits 8) (readersAt [0xB5] 4) = .next t ∧
      t.responses = (readersAt [0xB5] 4).responses ++ [⟨false, .exhausted, 0, 0⟩]) ∧
    ∃ t, exec (.avRdbits 8) (readersAt [0xB5] 4) = .next t ∧
      t.responses = (readersAt [0xB5] 4).responses ++ [⟨false, .exhausted, 0, 0⟩] :=
  ⟨by decide, ⟨_, rfl, by decide⟩, _, rfl, by decide⟩

/-- Both readers at the end, and the least and the greatest width of each. -/
theorem witness_ExhaustionIsIdempotent :
    8 * (readersAt [0x40] 8).eg.len ≤ (readersAt [0x40] 8).eg.pos ∧
    (readersAt [0x40] 8).av.len ≤ (readersAt [0x40] 8).av.byte ∧
    (∃ n, Instr.egRdbits 1 = .egRdbits n ∧ 1 ≤ n ∧ n ≤ 32) ∧ (∃ n, Instr.egRdbits 32 = .egRdbits n ∧ 1 ≤ n ∧ n ≤ 32) ∧
    ∃ n, Instr.avRdbits 64 = .avRdbits n ∧ 1 ≤ n ∧ n ≤ 64 :=
  ⟨by decide, by decide, ⟨1, rfl, by decide⟩, ⟨32, rfl, by decide⟩, 64, rfl, by decide⟩

/-- A read of unit EG is no `INIT`; it serves the statements on what a command leaves alone, and on its bits. -/
theorem witness_OnlyInitChangesAPayload :
    (∃ t, exec (.egRdbits 3) (readersAt [0x40] 0) = .next t) ∧ (∀ payload, Instr.egRdbits 3 ≠ .egInit payload) ∧
    ∀ payload, Instr.egRdbits 3 ≠ .avInit payload :=
  ⟨⟨_, rfl⟩, fun _ => by simp, fun _ => by simp⟩

theorem witness_CommandsWriteOnlyTheirUnit :
    (∃ t, exec (.avRdbits 3) (readersAt [0x40] 0) = .next t) ∧ (Instr.avRdbits 3).unit ≠ .eg ∧
    isInit (.avRdbits 3) = false ∧
    (∃ t, exec (.egInit [0x40]) (readersAt [0x40] 0) = .next t) ∧ (Instr.egInit [0x40]).unit ≠ .av :=
  ⟨⟨_, rfl⟩, by decide, by decide, ⟨_, rfl⟩, by decide⟩

/-- The other reader and the list of responses differ between the two states. -/
theorem witness_CommandsReadOnlyTheirUnit :
    (∃ t, exec .egRdue (readersAt [0x40] 0) = .next t) ∧
    ({ readersAt [0x40] 0 with av := .reset, responses := [⟨false, .exhausted, 0, 0⟩] } : State).eg =
      (readersAt [0x40] 0).eg ∧ (Instr.egRdue).unit = .eg ∧ (Instr.egRdue).unit ≠ .av :=
  ⟨⟨_, rfl⟩, by decide, by decide, by decide⟩

theorem witness_CommandsToDifferentUnitsCommute :
    (Instr.egRdue).unit ≠ (Instr.avRdbits 4).unit ∧
    ∃ t, exec .egRdue (readersAt [0x5A, 0xC3] 0) = .next t ∧ ∃ u, exec (.avRdbits 4) t = .next u :=
  ⟨by decide, _, rfl, _, rfl⟩

/-- The commands of program P5, steps 1 to 5, an illegal word among them. -/
theorem witness_InterleavingIsInvisibleToAUnit :
    State.reset.Legal ∧
    ([(0x0800, [0x5A, 0xC3]), (0x4800, [0x5A, 0xC3]), (0x2000, []), (0x5804, []), (0x0000, [])] :
      List (CmdWord × List Byte)).map (fun c => (addressesEg c, addressesAv c)) =
      [(true, false), (false, true), (true, false), (false, true), (false, false)] := by decide

theorem witness_PositionsNeverDecrease :
    (∃ t, exec (.egInit [0x60]) (readersAt [0xB5, 0x3C] 16) = .next t) ∧
    (∃ t, exec (.avInit [0x60]) (readersAt [0xB5, 0x3C] 16) = .next t) ∧
    ∃ t, exec .avRdbit (readersAt [0xB5, 0x3C] 15) = .next t := ⟨⟨_, rfl⟩, ⟨_, rfl⟩, _, rfl⟩

/-- The most bits of each: 63 by the longest code, `n`, and none past the width bound. -/
theorem witness_CommandsConsumeBoundedBits :
    (shows (exec .egRdue (readersAt longestCode 0))).map (fun x => x.2.1) = some 63 ∧
    (shows (exec (.egRdbits 33) (readersAt longestCode 0))).map (fun x => x.2.1) = some 0 ∧
    (shows (exec (.avRdbits 64) (readersAt longestCode 0))).map (fun x => x.2.2.1) = some 8 ∧
    isInit .egRdue = false ∧ isInit (.egRdbits 33) = false ∧ isInit (.avRdbits 64) = false := by decide

/-- A legal state from which a step goes on: a command, an illegal word, a reset, and nothing presented. -/
theorem witness_EveryStepKeepsTheStateLegal :
    (presenting [0x40] 8 (.command 0x2000 [])).Legal ∧ (presenting [0x40] 8 .reset).Legal ∧ (readersAt [0x40] 8).Legal ∧
    (∃ t, step (presenting [0x40] 8 (.command 0x2000 [])) = .next t) ∧
    (∃ t, step (presenting [0x40] 8 (.command 0xC000 [])) = .next t) ∧
    (∃ t, step (presenting [0x40] 8 .reset) = .next t) ∧ ∃ t, step (readersAt [0x40] 8) = .next t :=
  ⟨by decide, by decide, by decide, ⟨_, rfl⟩, ⟨_, rfl⟩, ⟨_, rfl⟩, _, rfl⟩

theorem witness_NoStepStopsInALegalState : (presenting [0x40] 8 (.command 0x1808 [])).Legal := by decide

/-- A block of payloads of at most two bytes, a payload of two bytes read to its end and one of two bytes presented. -/
theorem witness_NoRegisterOutgrowsItsWidth :
    (presenting [0xB5, 0x3C] 16 (.command 0x0800 [0x60, 0x60])).Legal ∧
    State.Within 2 (presenting [0xB5, 0x3C] 16 (.command 0x0800 [0x60, 0x60])) ∧
    ∃ t, step (presenting [0xB5, 0x3C] 16 (.command 0x0800 [0x60, 0x60])) = .next t := by
  refine ⟨by decide, ⟨by decide, by decide, ?_⟩, _, rfl⟩
  simp only [presenting, List.mem_singleton, forall_eq, HostEvent.Within]
  intro i h
  cases h
  decide

end Sys2Proof.Tests
end

section
/-! SUPPORT and PROOF. The reset state of the two readers (spec/10_state.md R21). -/

namespace Sys2Proof.Machine

/-- R13 in the reset state: position 0 is not past the end of the empty payload. -/
theorem EgReader.reset_legal : EgReader.reset.Legal := ⟨rfl, Nat.zero_le _⟩

/-- R14 in the reset state: the cursor of the empty payload is at the end, on bit 0. -/
theorem AvReader.reset_legal : AvReader.reset.Legal := ⟨rfl, Nat.le_refl _, fun _ => rfl⟩

/-- Settles O1: the elements are those of the two reset readers, and the invariants are those of a legal reader. -/
theorem resetHasEmptyReaders : Obligations.ResetHasEmptyReaders := by
  obtain ⟨-, egPos_le⟩ := EgReader.reset_legal
  obtain ⟨-, avByte_le, avBit_of_end⟩ := AvReader.reset_legal
  exact ⟨rfl, rfl, rfl, rfl, rfl, rfl, rfl, egPos_le, avByte_le, Fin.is_le _, avBit_of_end⟩

end Sys2Proof.Machine
end

section
/-! SUPPORT and PROOF. The order of the bits (spec/20_memory.md R33): a one-bit read of either reader answers the stream
bit at the reader's position and moves one bit on, and the stream bits of a byte sequence are its bits, most significant
first. -/

namespace Sys2Proof.Machine

/-! ### The stream bit and its value -/

theorem payloadBit_of_streamBit {buf : Memory} {len i : Nat} {b : Bool} (h : streamBit buf len i = some b) :
    payloadBit buf len i = b := by
  rw [payloadBit, h, Option.getD_some]

/-- R33 below the end of a byte sequence, where the byte exists. -/
theorem streamBit_ofBytes_of_lt (p : List Byte) {i : Nat} (h : i / 8 < p.length) :
    streamBit (Memory.ofBytes p) p.length i = some ((p[i / 8]).getLsbD (7 - i % 8)) := by
  rw [streamBit_ofBytes, List.getElem?_eq_getElem h, Option.map_some]

/-- The value a one-bit read answers, in the 64 bits of the response (spec/30_encoding.md R55). -/
theorem setWidth_ofBool_64 (b : Bool) : (BitVec.ofBool b).setWidth 64 = if b then 1 else 0 := by
  cases b <;> rfl

/-- Unit EG reads into 32 bits, which the response extends with zeros. -/
theorem setWidth_ofBool_32_64 (b : Bool) :
    ((BitVec.ofBool b).setWidth 32).setWidth 64 = if b then 1 else 0 := by
  cases b <;> rfl

/-! ### The one-bit reads -/

/-- The bit step of unit EG consumes the stream bit at its position. -/
theorem egBit_of_streamBit {r : EgReader} {b : Bool} (h : streamBit r.buf r.len r.pos = some b) :
    egBit r = .done b (r.atPos (r.pos + 1)) := by
  rw [egBit_readable, payloadBit_of_streamBit h]
  intro k hk
  obtain rfl : k = 0 := by omega
  exact streamBit_eq_payloadBit h

/-- The bit step of unit AV consumes the stream bit at the global index of its cursor. -/
theorem avBit_of_streamBit {r : AvReader} {b : Bool} (h : streamBit r.buf r.len r.globalPos = some b) :
    avBit r = .done b (r.atPos (r.globalPos + 1)) := by
  rw [avBit_readable, payloadBit_of_streamBit h]
  intro k hk
  obtain rfl : k = 0 := by omega
  exact streamBit_eq_payloadBit h

/-- `EG.RDBIT` where a stream bit stands at the position (spec/40_expgolomb_reader.md R71). -/
theorem exec_egRdbit_of_streamBit {s : State} {b : Bool} (h : streamBit s.eg.buf s.eg.len s.eg.pos = some b) :
    exec .egRdbit s =
      .next ((s.withEg (s.eg.atPos (s.eg.pos + 1))).respond (.success (if b then 1 else 0))) := by
  rw [exec_eg rfl, egSteps, egBit_of_streamBit h, Attempt.map, Attempt.bind, State.finishEg, setWidth_ofBool_32_64]

/-- `AV.RDBIT` where a stream bit stands at the global index of the cursor (spec/41_av1_reader.md R91). -/
theorem exec_avRdbit_of_streamBit {s : State} {b : Bool} (h : streamBit s.av.buf s.av.len s.av.globalPos = some b) :
    exec .avRdbit s =
      .next ((s.withAv (s.av.atPos (s.av.globalPos + 1))).respond (.success (if b then 1 else 0))) := by
  rw [exec_av rfl, avSteps, avBit_of_streamBit h, Attempt.map, Attempt.bind, State.finishAv, setWidth_ofBool_64]

/-- Settles O16: the stream bit is the bit of the byte, and each reader, standing at that stream bit, reads it. -/
theorem bitsAreConsumedMostSignificantFirst : Obligations.BitsAreConsumedMostSignificantFirst := by
  intro payload i hi
  have hbit := streamBit_ofBytes_of_lt payload (i := i) (by omega)
  refine ⟨hbit, fun s heg => ?_, fun s hav => ?_⟩
  · rw [exec_egRdbit_of_streamBit (by rw [heg]; exact hbit), heg]
    rfl
  · have hat : s.av = (AvReader.construct payload).atPos i := hav
    have hpos : s.av.globalPos = i := by rw [hat, AvReader.atPos_globalPos]
    rw [exec_avRdbit_of_streamBit (by rw [hpos, hat]; exact hbit), hpos, hat]
    rfl

end Sys2Proof.Machine
end

section
/-! SUPPORT and PROOF. The fixed-width reads of unit EG by their closed form (spec/40_expgolomb_reader.md R71, R72), and
its commands that take the steps of `EG.RDUE` and answer another value (R76, R77). -/

namespace Sys2Proof.Machine

/-! ### The end of an EG command, by how its steps end -/

@[simp] theorem Attempt.map_done {ρ α β : Type} (g : α → β) (v : α) (r : ρ) :
    (Attempt.done v r).map g = .done (g v) r := rfl

@[simp] theorem Attempt.map_fail {ρ α β : Type} (g : α → β) (k : Kind) (r : ρ) :
    (Attempt.fail k r : Attempt ρ α).map g = .fail k r := rfl

@[simp] theorem State.finishEg_done (s : State) (v : BitVec 32) (r : EgReader) :
    s.finishEg (.done v r) = .next ((s.withEg r).respond (.success (v.setWidth 64))) := rfl

@[simp] theorem State.finishEg_fail (s : State) (k : Kind) (r : EgReader) :
    s.finishEg (.fail k r) = .next ((s.withEg r).respond (.failure k)) := rfl

/-- How the steps of an EG command ended, where its one response is known. -/
theorem State.finishEg_answer {s t : State} {a : Attempt EgReader (BitVec 32)} {resp : Response}
    (h : s.finishEg a = .next t) (hresp : t.responses = s.responses ++ [resp]) :
    (∃ v r, a = .done v r ∧ t = (s.withEg r).respond resp ∧ resp = .success (v.setWidth 64)) ∨
    (∃ k r, a = .fail k r ∧ t = (s.withEg r).respond resp ∧ resp = .failure k) := by
  rcases State.finishEg_next h with ⟨v, r, ha, rfl⟩ | ⟨k, r, ha, rfl⟩
  · obtain rfl : Response.success (v.setWidth 64) = resp := by simpa using hresp
    exact .inl ⟨v, r, ha, rfl, rfl⟩
  · obtain rfl : Response.failure k = resp := by simpa using hresp
    exact .inr ⟨k, r, ha, rfl, rfl⟩

/-! ### One bit -/

/-- Settles O17: a legal reader at the end has no bit to give, and before the end its next stream bit exists. -/
theorem egRdbitReadsTheNextBit : Obligations.EgRdbitReadsTheNextBit := by
  refine ⟨by decide, fun s hs => ⟨fun hend => ?_, fun hlt => ?_⟩⟩
  · rw [exec_eg rfl, egSteps, egBit_end hend.ge, Attempt.map_fail, State.finishEg_fail]
    rfl
  · have hbit := hs.1.streamBit hlt
    exact ⟨_, hbit, exec_egRdbit_of_streamBit hbit⟩

/-! ### A field of bits -/

/-- The word of `EG.RDBITS` is its row's pattern plus the bit count (spec/30_encoding.md R52, R53). -/
theorem encodeWord_egRdbits {n : Nat} (hn : n < 256) :
    encodeWord (.egRdbits n) = BitVec.ofNat 16 (0x1800 + n) := by
  apply BitVec.eq_of_toNat_eq
  rw [encodeWord, cmdWord_toNat]
  simp only [BitVec.ofNat_eq_ofNat, BitVec.toNat_ofNat]
  omega

theorem decode_encodeWord_egRdbits {n : Nat} (hn : n < 256) (operand : List Byte) :
    decode (encodeWord (.egRdbits n)) operand = .ok (.egRdbits n) := by
  simp [encodeWord, decode, decodeEg, Nat.mod_eq_of_lt hn]

/-- The number a field of at most 32 bits is survives the 32-bit result and its extension to 64 bits. -/
theorem setWidth_ofNat_bigEndianValue {n : Nat} (hn : n ≤ 32) (buf : Memory) (len p : Nat) :
    (BitVec.ofNat 32 (bigEndianValue buf len p n)).setWidth 64 = BitVec.ofNat 64 (bigEndianValue buf len p n) := by
  have hlt : bigEndianValue buf len p n < 2 ^ 32 :=
    (bigEndianValue_lt buf len p n).trans_le (Nat.pow_le_pow_right (by omega) hn)
  apply BitVec.eq_of_toNat_eq
  rw [BitVec.toNat_setWidth, BitVec.toNat_ofNat, BitVec.toNat_ofNat, Nat.mod_eq_of_lt hlt]

/-- `EG.RDBITS n` over `n` bits that exist (R72). -/
theorem exec_egRdbits_readable {s : State} {n : Nat} (hn : n ≤ 32) (h : s.eg.Readable n) :
    exec (.egRdbits n) s = .next ((s.withEg (s.eg.atPos (s.eg.pos + n))).respond
      (.success (BitVec.ofNat 64 (bigEndianValue s.eg.buf s.eg.len s.eg.pos n)))) := by
  rw [exec_eg rfl, egSteps, egReadField_narrow hn, egReadBits_readable n 0 s.eg h, State.finishEg_done,
    BitVec.ofNat_eq_ofNat, BitVec.toNat_zero, Nat.zero_mul, Nat.zero_add, setWidth_ofNat_bigEndianValue hn]

/-- Settles O18: the width test, and then the field loop, which finds all its bits or runs into the end. -/
theorem egRdbitsReadsABigEndianField : Obligations.EgRdbitsReadsABigEndianField := by
  refine ⟨fun n hn => ?_, fun s n hs =>
    ⟨fun hwide => ?_, fun hn hrem => ⟨bigEndianValue_lt _ _ _ _, ?_⟩, fun hn hrem => ?_⟩⟩
  · rw [← encodeWord_egRdbits hn, decode_encodeWord_egRdbits hn]
  · rw [exec_eg rfl, egSteps, egReadField_wide hwide, State.finishEg_fail]
    rfl
  · have hpos : s.eg.pos ≤ 8 * s.eg.len := hs.2
    exact exec_egRdbits_readable hn (hs.readable (by omega))
  · rw [exec_eg rfl, egSteps, egReadField_narrow hn, egReadBits_short n 0 s.eg hs hrem, State.finishEg_fail]
    rfl

/-! ### The steps of `EG.RDUE` with another value -/

theorem exec_egRdue (s : State) : exec .egRdue s = s.finishEg (egDecodeUe s.eg) := exec_eg rfl s

theorem exec_egRdse (s : State) :
    exec .egRdse s = s.finishEg ((egDecodeUe s.eg).map fun ue => BitVec.ofInt 32 (seOfUe ue.toNat)) :=
  exec_eg rfl s

theorem exec_egSkue (s : State) : exec .egSkue s = s.finishEg ((egDecodeUe s.eg).map fun _ => 0) := exec_eg rfl s

/-- The 32-bit two's-complement pattern of the signed number a `ue` value stands for, as a number (R76). -/
theorem toNat_ofInt_seOfUe (v : BitVec 32) :
    (BitVec.ofInt 32 (seOfUe v.toNat)).toNat =
      if v.toNat = 0 then 0 else if v.toNat % 2 = 1 then (v.toNat + 1) / 2 else 2 ^ 32 - v.toNat / 2 := by
  have hv := v.isLt
  rw [BitVec.toNat_ofInt, seOfUe]
  split_ifs <;> omega

/-- Settles O55: `EG.RDSE` ends where the steps of `EG.RDUE` end; a success has its value mapped. -/
theorem egRdseEndsAsEgRdueDoes : Obligations.EgRdseEndsAsEgRdueDoes := by
  refine ⟨by decide, fun s t resp hue hresp => ?_⟩
  rw [exec_egRdue] at hue
  rcases State.finishEg_answer hue hresp with ⟨v, r, ha, rfl, rfl⟩ | ⟨k, r, ha, rfl, rfl⟩
  · have hvalue : (Response.success (v.setWidth 64)).value.toNat = v.toNat :=
      BitVec.toNat_setWidth_of_le (by omega)
    dsimp only
    rw [exec_egRdse, ha, Attempt.map_done, State.finishEg_done, hvalue, ← toNat_ofInt_seOfUe, BitVec.ofNat_toNat]
    rfl
  · rw [exec_egRdse, ha, Attempt.map_fail, State.finishEg_fail]
    rfl

/-- Settles O56: `EG.SKUE` ends where the steps of `EG.RDUE` end, with the value 0; that of a failure is 0 already. -/
theorem egSkueEndsAsEgRdueDoes : Obligations.EgSkueEndsAsEgRdueDoes := by
  refine ⟨by decide, fun s t resp hue hresp => ?_⟩
  rw [exec_egRdue] at hue
  rcases State.finishEg_answer hue hresp with ⟨v, r, ha, rfl, rfl⟩ | ⟨k, r, ha, rfl, rfl⟩
  · rw [exec_egSkue, ha, Attempt.map_done, State.finishEg_done]
    rfl
  · rw [exec_egSkue, ha, Attempt.map_fail, State.finishEg_fail]
    rfl

end Sys2Proof.Machine
end

section
/-! SUPPORT and PROOF. The fixed-width reads of unit AV: one bit over the (byte, bit) pair (spec/41_av1_reader.md R91),
and a field of bits by its closed form over the global index (R92). -/

namespace Sys2Proof.Machine

/-! ### The end of an AV command, by how its steps end -/

@[simp] theorem State.finishAv_done (s : State) (v : BitVec 64) (r : AvReader) :
    s.finishAv (.done v r) = .next ((s.withAv r).respond (.success v)) := rfl

@[simp] theorem State.finishAv_fail (s : State) (k : Kind) (r : AvReader) :
    s.finishAv (.fail k r) = .next ((s.withAv r).respond (.failure k)) := rfl

/-! ### The global index and the (byte, bit) pair -/

/-- The stream bit at the global index is bit `7 - AV.BIT` of byte `AV.BYTE` (R15, R33). -/
theorem AvReader.streamBit_globalPos {r : AvReader} {b : Byte} (hlt : r.byte < r.len)
    (hb : Memory.read r.buf r.byte = some b) :
    streamBit r.buf r.len r.globalPos = some (b.getLsbD (7 - r.bit.val)) := by
  rw [streamBit, r.globalPos_byte, r.globalPos_bit, memRead, if_pos hlt, hb, Option.map_some]

/-- One more on the global index is one bit further in the byte, or bit 0 of the next byte (R90). -/
theorem AvReader.atPos_globalPos_succ (r : AvReader) :
    r.atPos (r.globalPos + 1) =
      if r.bit = 7 then { r with byte := r.byte + 1, bit := 0 } else { r with bit := r.bit + 1 } := by
  have hbit : r.bit.val = 7 ↔ r.bit = 7 := (Fin.ext_iff (b := 7)).symm
  rw [← r.advance_eq, AvReader.advance]
  simp only [hbit]

/-- The end of the payload is bit 0 of byte `AV.LEN`. -/
theorem AvReader.atPos_end (r : AvReader) : r.atPos (8 * r.len) = { r with byte := r.len, bit := 0 } := by
  rw [AvReader.atPos, Nat.mul_div_cancel_left _ (by omega)]
  congr 1
  ext
  simp

/-! ### One bit -/

/-- Settles O28: a legal reader at the end has no bit to give; before the end its byte exists, and the bit read is the
stream bit at the global index. -/
theorem avRdbitReadsTheNextBit : Obligations.AvRdbitReadsTheNextBit := by
  refine ⟨by decide, fun s hs => ⟨fun hend => ?_, fun hlt => ?_⟩⟩
  · rw [exec_av rfl, avSteps, avBit_end hend.ge, Attempt.map_fail, State.finishAv_fail]
    rfl
  · obtain ⟨hholds, -, -⟩ := hs
    obtain ⟨b, hb⟩ := hholds.read_isSome hlt
    refine ⟨b, hb, ?_⟩
    rw [exec_avRdbit_of_streamBit (AvReader.streamBit_globalPos hlt hb), AvReader.atPos_globalPos_succ]
    rfl

/-! ### A field of bits -/

/-- The word of `AV.RDBITS` is its row's pattern plus the bit count (spec/30_encoding.md R52, R53). -/
theorem encodeWord_avRdbits {n : Nat} (hn : n < 256) :
    encodeWord (.avRdbits n) = BitVec.ofNat 16 (0x5800 + n) := by
  apply BitVec.eq_of_toNat_eq
  rw [encodeWord, cmdWord_toNat]
  simp only [BitVec.ofNat_eq_ofNat, BitVec.toNat_ofNat]
  omega

theorem decode_encodeWord_avRdbits {n : Nat} (hn : n < 256) (operand : List Byte) :
    decode (encodeWord (.avRdbits n)) operand = .ok (.avRdbits n) := by
  simp [encodeWord, decode, decodeAv, Nat.mod_eq_of_lt hn]

/-- `AV.RDBITS n` over `n` bits that exist (R92). -/
theorem exec_avRdbits_readable {s : State} {n : Nat} (hn : n ≤ 64) (h : s.av.Readable n) :
    exec (.avRdbits n) s = .next ((s.withAv (s.av.atPos (s.av.globalPos + n))).respond
      (.success (BitVec.ofNat 64 (bigEndianValue s.av.buf s.av.len s.av.globalPos n)))) := by
  rw [exec_av rfl, avSteps, avReadField_narrow hn, avReadBits_readable n 0 s.av h, State.finishAv_done,
    BitVec.ofNat_eq_ofNat, BitVec.toNat_zero, Nat.zero_mul, Nat.zero_add]

/-- `AV.RDBITS n` with fewer than `n` bits left: the reader rests at the end (R92). -/
theorem exec_avRdbits_short {s : State} {n : Nat} (hn : n ≤ 64) (hs : s.av.Legal)
    (hrem : 8 * s.av.len - s.av.globalPos < n) :
    exec (.avRdbits n) s =
      .next ((s.withAv { s.av with byte := s.av.len, bit := 0 }).respond (.failure .exhausted)) := by
  rw [exec_av rfl, avSteps, avReadField_narrow hn, avReadBits_short n 0 s.av hs hrem, State.finishAv_fail,
    AvReader.atPos_end]

/-- Settles O29: the width test, and then the field loop, which finds all its bits or runs into the end. -/
theorem avRdbitsReadsABigEndianField : Obligations.AvRdbitsReadsABigEndianField := by
  refine ⟨fun n hn => ?_, fun s n hs =>
    ⟨fun hwide => ?_, fun hn hrem => ⟨bigEndianValue_lt _ _ _ _, ?_⟩, fun hn hrem => ?_⟩⟩
  · rw [← encodeWord_avRdbits hn, decode_encodeWord_avRdbits hn]
  · rw [exec_av rfl, avSteps, avReadField_wide hwide, State.finishAv_fail]
    rfl
  · have hpos := hs.globalPos_le
    have hfits : s.av.globalPos + n ≤ 8 * s.av.len := (Nat.le_sub_iff_add_le' hpos).1 hrem
    exact exec_avRdbits_readable hn (hs.readable hfits)
  · exact exec_avRdbits_short hn hs hrem

end Sys2Proof.Machine
end

section
/-! SUPPORT and PROOF. Construction of an AV1 reader (spec/43_lifecycle.md R111): the word of `AV.INIT` and what the
command does in every state. -/

namespace Sys2Proof.Machine

/-- The word of `AV.INIT` is the pattern of its row, whatever the payload (spec/30_encoding.md R52). -/
theorem encodeWord_avInit (payload : List Byte) : encodeWord (.avInit payload) = 0x4800 := by
  rw [encodeWord]
  decide

theorem decode_encodeWord_avInit (payload : List Byte) :
    decode (encodeWord (.avInit payload)) payload = .ok (.avInit payload) := by
  simp [encodeWord, decode, decodeAv, withoutImmediate]

/-- `AV.INIT` takes no step that can fail: the new reader replaces the old one and the answer is 0 (R111). -/
theorem exec_avInit (payload : List Byte) (s : State) :
    exec (.avInit payload) s = .next ((s.withAv (.construct payload)).respond (.success 0)) := by
  rw [exec_av rfl, avSteps, State.finishAv_done]

/-- Settles O15: the payload's bytes are what the space constructed over them reads as. -/
theorem avInitConstructsAReader : Obligations.AvInitConstructsAReader := by
  refine ⟨fun payload => ?_, fun s payload => ⟨Memory.ofBytes payload, ?_, Memory.read_ofBytes payload⟩⟩
  · rw [← encodeWord_avInit payload, decode_encodeWord_avInit]
  · rw [exec_avInit]
    rfl

end Sys2Proof.Machine
end

section
/-! SUPPORT and PROOF. Failures and responses (spec/60_exceptions.md): an illegal word is answered and changes no unit
(R125), and every command word is answered exactly once (R122). The one way a step could fail to answer is a read where
`MemRead` is not defined; the steps of no command reach one from a legal reader. -/

namespace Sys2Proof.Machine

/-! ### A step over a command word -/

/-- A command word that spells a command is performed (spec/00_scope.md R7). -/
theorem step_of_decode_ok {s : State} {w : CmdWord} {operand : List Byte} {rest : List HostEvent} {i : Instr}
    (hp : s.pending = .command w operand :: rest) (hd : decode w operand = .ok i) :
    step s = exec i { s with pending := rest } := by
  simp only [step, State.takeEvent, hp, hd]

/-- A command word that spells none is answered `ILLEGAL_COMMAND` (R125). -/
theorem step_of_decode_error {s : State} {w : CmdWord} {operand : List Byte} {rest : List HostEvent}
    {e : DecodeReject} (hp : s.pending = .command w operand :: rest) (hd : decode w operand = .error e) :
    step s = .next { s with pending := rest }.illegalCommand := by
  simp only [step, State.takeEvent, hp, hd]

/-! ### Legality of a word, whatever the operand -/

theorem isOk_withoutImmediate (w : CmdWord) (i : Instr) :
    (withoutImmediate w i).isOk = decide (immField w = 0) := by
  rw [withoutImmediate]
  by_cases h : immField w = 0
  · rw [if_pos h, decide_eq_true h]
    rfl
  · rw [if_neg h, decide_eq_false h]
    rfl

theorem isOk_decodeEg (w : CmdWord) (p q : List Byte) : (decodeEg w p).isOk = (decodeEg w q).isOk := by
  rw [decodeEg, decodeEg]
  split <;> simp only [isOk_withoutImmediate]

theorem isOk_decodeAv (w : CmdWord) (p q : List Byte) : (decodeAv w p).isOk = (decodeAv w q).isOk := by
  rw [decodeAv, decodeAv]
  split <;> simp only [isOk_withoutImmediate]

theorem isOk_decodeVu (w : CmdWord) (p q : List Byte) : (decodeVu w p).isOk = (decodeVu w q).isOk := by
  rw [decodeVu, decodeVu]
  split <;> simp only [isOk_withoutImmediate]

/-- Whether a word spells a command does not depend on the operand: each unit's decoder reads the word's fields, and
hands the operand on (R57). -/
theorem isOk_decode (w : CmdWord) (operand : List Byte) : (decode w operand).isOk = legalWord w := by
  rw [legalWord, decode, decode]
  split
  · rfl
  · split
    · exact isOk_decodeEg w operand []
    · exact isOk_decodeAv w operand []
    · exact isOk_decodeVu w operand []
    · rfl

theorem decode_error_of_illegal {w : CmdWord} (h : legalWord w = false) (operand : List Byte) :
    ∃ e, decode w operand = .error e := by
  rw [← isOk_decode w operand] at h
  cases hd : decode w operand with
  | error e => exact ⟨e, rfl⟩
  | ok i =>
    rw [hd] at h
    cases h

/-- Settles O4: the word is illegal with the operand it comes with, so the step is the answer to an illegal word. -/
theorem illegalWordIsAnsweredAndChangesNothing : Obligations.IllegalWordIsAnsweredAndChangesNothing := by
  refine ⟨rfl, fun s w operand rest hp hw => ?_⟩
  obtain ⟨e, hd⟩ := decode_error_of_illegal hw operand
  exact step_of_decode_error hp hd

/-! ### Steps that end -/

/-- The steps end with a value or with a failure, and so not at a byte that does not exist (R31). -/
def Attempt.Ends {ρ α : Type} (a : Attempt ρ α) : Prop := ∀ f, a ≠ .stop f

theorem Attempt.ends_done {ρ α : Type} (v : α) (r : ρ) : (Attempt.done v r).Ends := by
  intro f h
  cases h

theorem Attempt.ends_fail {ρ α : Type} (k : Kind) (r : ρ) : (Attempt.fail k r : Attempt ρ α).Ends := by
  intro f h
  cases h

theorem Attempt.Ends.map {ρ α β : Type} {a : Attempt ρ α} (h : a.Ends) (g : α → β) : (a.map g).Ends := by
  cases a with
  | done v r => exact Attempt.ends_done (g v) r
  | fail k r => exact Attempt.ends_fail k r
  | stop f => exact absurd rfl (h f)

theorem EgReader.Legal.ends_egBit {r : EgReader} (h : r.Legal) : (egBit r).Ends := by
  by_cases hend : 8 * r.len ≤ r.pos
  · rw [egBit_end hend]
    exact Attempt.ends_fail _ _
  · rw [egBit_readable (h.readable (by omega))]
    exact Attempt.ends_done _ _

theorem EgReader.Legal.ends_egReadField {r : EgReader} (h : r.Legal) (n : Nat) : (egReadField n r).Ends := by
  by_cases hwide : 32 < n
  · rw [egReadField_wide hwide]
    exact Attempt.ends_fail _ _
  · rw [egReadField_narrow (by omega)]
    by_cases hrem : 8 * r.len - r.pos < n
    · rw [egReadBits_short n 0 r h hrem]
      exact Attempt.ends_fail _ _
    · have hpos : r.pos ≤ 8 * r.len := h.2
      rw [egReadBits_readable n 0 r (h.readable (by omega))]
      exact Attempt.ends_done _ _

theorem EgReader.Legal.ends_egDecodeUe {r : EgReader} (h : r.Legal) : (egDecodeUe r).Ends := by
  rw [egDecodeUe_legal r h]
  split
  · exact Attempt.ends_done _ _
  · exact Attempt.ends_fail _ _

theorem EgReader.Legal.ends_egDecodeSe {r : EgReader} (h : r.Legal) : (egDecodeSe r).Ends := by
  rw [egDecodeSe_eq]
  exact h.ends_egDecodeUe.map _

theorem AvReader.Legal.ends_avBit {r : AvReader} (h : r.Legal) : (avBit r).Ends := by
  by_cases hend : r.len ≤ r.byte
  · rw [avBit_end hend]
    exact Attempt.ends_fail _ _
  · have hbyte := r.globalPos_byte
    rw [avBit_readable (h.readable (by omega))]
    exact Attempt.ends_done _ _

theorem AvReader.Legal.ends_avReadField {r : AvReader} (h : r.Legal) (n : Nat) : (avReadField n r).Ends := by
  by_cases hwide : 64 < n
  · rw [avReadField_wide hwide]
    exact Attempt.ends_fail _ _
  · rw [avReadField_narrow (by omega)]
    by_cases hrem : 8 * r.len - r.globalPos < n
    · rw [avReadBits_short n 0 r h hrem]
      exact Attempt.ends_fail _ _
    · have hpos := h.globalPos_le
      rw [avReadBits_readable n 0 r (h.readable (by omega))]
      exact Attempt.ends_done _ _

/-- From a legal reader the steps of every command over unit EG end. -/
theorem EgReader.Legal.ends_egSteps {r : EgReader} (h : r.Legal) (i : Instr) : (egSteps i r).Ends := by
  cases i with
  | egRdbit => exact h.ends_egBit.map _
  | egRdbits n => exact h.ends_egReadField n
  | egRdue => exact h.ends_egDecodeUe
  | egRdse => exact h.ends_egDecodeSe
  | egSkue => exact h.ends_egDecodeUe.map _
  | egSkse => exact h.ends_egDecodeSe.map _
  | egInit _ | avInit _ | avRdbit | avRdbits _ | vuDec _ => exact Attempt.ends_done _ _

/-- From a legal reader the steps of every command over unit AV end. -/
theorem AvReader.Legal.ends_avSteps {r : AvReader} (h : r.Legal) (i : Instr) : (avSteps i r).Ends := by
  cases i with
  | avRdbit => exact h.ends_avBit.map _
  | avRdbits n => exact h.ends_avReadField n
  | avInit _ | egInit _ | egRdbit | egRdbits _ | egRdue | egRdse | egSkue | egSkse | vuDec _ =>
    exact Attempt.ends_done _ _

/-! ### One answer -/

/-- The outcome is a next state that has one more response than `s`, and as much still to be presented. -/
def State.AnsweredBy (s : State) (o : Host.Outcome State Fault Refusal) : Prop :=
  ∃ t r, o = .next t ∧ t.responses = s.responses ++ [r] ∧ t.pending = s.pending

theorem State.answeredBy_respond (s : State) (r : Response) : s.AnsweredBy (.next (s.respond r)) :=
  ⟨_, r, rfl, s.respond_responses r, s.respond_pending r⟩

/-- Steps of unit EG that end are answered once, whether they succeed or fail (R121, R123). -/
theorem State.answeredBy_finishEg (s : State) {a : Attempt EgReader (BitVec 32)} (h : a.Ends) :
    s.AnsweredBy (s.finishEg a) := by
  cases a with
  | done v r => exact (s.withEg r).answeredBy_respond _
  | fail k r => exact (s.withEg r).answeredBy_respond _
  | stop f => exact absurd rfl (h f)

/-- Steps of unit AV that end are answered once, whether they succeed or fail (R121, R123). -/
theorem State.answeredBy_finishAv (s : State) {a : Attempt AvReader (BitVec 64)} (h : a.Ends) :
    s.AnsweredBy (s.finishAv a) := by
  cases a with
  | done v r => exact (s.withAv r).answeredBy_respond _
  | fail k r => exact (s.withAv r).answeredBy_respond _
  | stop f => exact absurd rfl (h f)

/-- R122 for the meaning of a command, by the unit it addresses. -/
theorem answeredBy_exec (i : Instr) {s : State} (heg : s.eg.Legal) (hav : s.av.Legal) : s.AnsweredBy (exec i s) := by
  cases i with
  | egInit _ | egRdbit | egRdbits _ | egRdue | egRdse | egSkue | egSkse =>
    rw [exec_eg rfl]
    exact s.answeredBy_finishEg (heg.ends_egSteps _)
  | avInit _ | avRdbit | avRdbits _ =>
    rw [exec_av rfl]
    exact s.answeredBy_finishAv (hav.ends_avSteps _)
  | vuDec bytes =>
    rw [exec_vu]
    exact s.answeredBy_respond _

/-- Settles O37: a word that spells a command is answered by the command's meaning, an illegal word by the step. -/
theorem everyCommandIsAnsweredOnce : Obligations.EveryCommandIsAnsweredOnce := by
  intro s w operand rest hs hp
  obtain ⟨heg, hav, -⟩ := hs
  cases hd : decode w operand with
  | ok i =>
    rw [step_of_decode_ok hp hd]
    exact answeredBy_exec i (s := { s with pending := rest }) heg hav
  | error e =>
    rw [step_of_decode_error hp hd]
    exact State.answeredBy_respond { s with pending := rest } _

end Sys2Proof.Machine
end

section
/-! SUPPORT and PROOF. The decoder and the encoder (spec/30_encoding.md R50 to R58). Both directions rest on two
facts: what the word of a command decodes to with any operand, and that a word decodes to a command only if it is that
command's word. -/

namespace Sys2Proof

/-! ### From a command to its word and back -/

/-- The command with another operand; a command that takes none is the same (R50). -/
def Instr.withOperand (operand : List Byte) : Instr → Instr
  | .egInit _ => .egInit operand
  | .egRdbit => .egRdbit
  | .egRdbits n => .egRdbits n
  | .egRdue => .egRdue
  | .egRdse => .egRdse
  | .egSkue => .egSkue
  | .egSkse => .egSkse
  | .avInit _ => .avInit operand
  | .avRdbit => .avRdbit
  | .avRdbits n => .avRdbits n
  | .vuDec _ => .vuDec operand

/-- A command given its own operand is itself (R54). -/
@[simp] theorem Instr.withOperand_encodeOperand (i : Instr) : i.withOperand (encodeOperand i) = i := by
  cases i <;> rfl

/-- A command that takes no operand is the same with every operand. -/
theorem Instr.withOperand_of_noOperand {i : Instr} (operand : List Byte) (heg : ∀ p, i ≠ .egInit p)
    (hav : ∀ p, i ≠ .avInit p) (hvu : ∀ b, i ≠ .vuDec b) : i.withOperand operand = i := by
  cases i with
  | egInit p => exact absurd rfl (heg p)
  | avInit p => exact absurd rfl (hav p)
  | vuDec b => exact absurd rfl (hvu b)
  | egRdbit | egRdbits _ | egRdue | egRdse | egSkue | egSkse | avRdbit | avRdbits _ => rfl

/-- The word of a well-formed command decodes to that command, with the operand given (R50 to R53). -/
theorem decode_encodeWord {i : Instr} (hwf : i.wf = true) (operand : List Byte) :
    decode (encodeWord i) operand = .ok (i.withOperand operand) := by
  cases i with
  | egRdbits n =>
    rw [wf_egRdbits, immediateFits_iff] at hwf
    exact Machine.decode_encodeWord_egRdbits (by omega) operand
  | avRdbits n =>
    rw [wf_avRdbits, immediateFits_iff] at hwf
    exact Machine.decode_encodeWord_avRdbits (by omega) operand
  | egInit _ | egRdbit | egRdue | egRdse | egSkue | egSkse =>
    simp [encodeWord, decode, decodeEg, withoutImmediate, Instr.withOperand]
  | avInit _ | avRdbit => simp [encodeWord, decode, decodeAv, withoutImmediate, Instr.withOperand]
  | vuDec _ => simp [encodeWord, decode, decodeVu, withoutImmediate, Instr.withOperand]

/-- Settles O8: the word decodes to the command with the operand given, and the operand given is the command's own. -/
theorem decodeOfEncodeIsTheCommand : Obligations.DecodeOfEncodeIsTheCommand := by
  intro i hwf
  rw [decode_encodeWord hwf, Instr.withOperand_encodeOperand]

/-! ### From a word to its command and back -/

/-- A word with reserved field `000` is the word built from what its other fields are. -/
theorem cmdWord_eq_of_fields {w : CmdWord} {u : BitVec 2} (o : BitVec 3) (hr : rsvField w = 0)
    (hu : (unitField w).toNat = u.toNat) (ho : (opField w).toNat = o.toNat) : cmdWord u o (immField w) = w := by
  rw [← BitVec.eq_of_toNat_eq hu, ← BitVec.eq_of_toNat_eq ho, cmdWord_fields hr]

/-- A command is spelled by a word: it can be written, and the word is its own. -/
def SpelledBy (w : CmdWord) (i : Instr) : Prop := i.wf = true ∧ encodeWord i = w

theorem spelledBy_withoutImmediate {w u o} {i j : Instr} (hw : cmdWord u o (immField w) = w) (hwf : j.wf = true)
    (hj : encodeWord j = cmdWord u o 0) (h : withoutImmediate w j = .ok i) : SpelledBy w i := by
  obtain ⟨himm, rfl⟩ := withoutImmediate_ok h
  exact ⟨hwf, by rw [hj, ← himm, hw]⟩

theorem immediateFits_immField (w : CmdWord) : immediateFits (immField w).toNat = true := by
  have := (immField w).isLt
  rw [immediateFits_iff]
  omega

theorem spelledBy_egRdbits {w : CmdWord} (hw : cmdWord 0b00 0b011 (immField w) = w) :
    SpelledBy w (.egRdbits (immField w).toNat) :=
  ⟨immediateFits_immField w, by rw [encodeWord, BitVec.ofNat_toNat, BitVec.setWidth_eq, hw]⟩

theorem spelledBy_avRdbits {w : CmdWord} (hw : cmdWord 0b01 0b011 (immField w) = w) :
    SpelledBy w (.avRdbits (immField w).toNat) :=
  ⟨immediateFits_immField w, by rw [encodeWord, BitVec.ofNat_toNat, BitVec.setWidth_eq, hw]⟩

theorem spelledBy_decodeEg {w : CmdWord} {operand : List Byte} {i : Instr} (hr : rsvField w = 0)
    (hu : (unitField w).toNat = 0) (h : decodeEg w operand = .ok i) : SpelledBy w i := by
  have hw (o : BitVec 3) (ho : (opField w).toNat = o.toNat) : cmdWord 0b00 o (immField w) = w :=
    cmdWord_eq_of_fields o hr hu ho
  rw [decodeEg] at h
  split at h
  case h_1 ho => exact spelledBy_withoutImmediate (hw 0b001 ho) rfl rfl h
  case h_2 ho => exact spelledBy_withoutImmediate (hw 0b010 ho) rfl rfl h
  case h_3 ho =>
    cases h
    exact spelledBy_egRdbits (hw 0b011 ho)
  case h_4 ho => exact spelledBy_withoutImmediate (hw 0b100 ho) rfl rfl h
  case h_5 ho => exact spelledBy_withoutImmediate (hw 0b101 ho) rfl rfl h
  case h_6 ho => exact spelledBy_withoutImmediate (hw 0b110 ho) rfl rfl h
  case h_7 ho => exact spelledBy_withoutImmediate (hw 0b111 ho) rfl rfl h
  case h_8 => cases h

theorem spelledBy_decodeAv {w : CmdWord} {operand : List Byte} {i : Instr} (hr : rsvField w = 0)
    (hu : (unitField w).toNat = 1) (h : decodeAv w operand = .ok i) : SpelledBy w i := by
  have hw (o : BitVec 3) (ho : (opField w).toNat = o.toNat) : cmdWord 0b01 o (immField w) = w :=
    cmdWord_eq_of_fields o hr hu ho
  rw [decodeAv] at h
  split at h
  case h_1 ho => exact spelledBy_withoutImmediate (hw 0b001 ho) rfl rfl h
  case h_2 ho => exact spelledBy_withoutImmediate (hw 0b010 ho) rfl rfl h
  case h_3 ho =>
    cases h
    exact spelledBy_avRdbits (hw 0b011 ho)
  case h_4 => cases h

theorem spelledBy_decodeVu {w : CmdWord} {operand : List Byte} {i : Instr} (hr : rsvField w = 0)
    (hu : (unitField w).toNat = 2) (h : decodeVu w operand = .ok i) : SpelledBy w i := by
  rw [decodeVu] at h
  split at h
  case h_1 ho => exact spelledBy_withoutImmediate (cmdWord_eq_of_fields (u := 0b10) 0b001 hr hu ho) rfl rfl h
  case h_2 => cases h

/-- A word decodes to a command only if it is the word of that command. -/
theorem spelledBy_of_decode {w : CmdWord} {operand : List Byte} {i : Instr} (h : decode w operand = .ok i) :
    SpelledBy w i := by
  rw [decode] at h
  split at h
  · cases h
  · have hr : rsvField w = 0 := by simpa using ‹¬ rsvField w ≠ 0›
    split at h
    case h_1 hu => exact spelledBy_decodeEg hr hu h
    case h_2 hu => exact spelledBy_decodeAv hr hu h
    case h_3 hu => exact spelledBy_decodeVu hr hu h
    case h_4 => cases h

/-- The command a word decodes to has the operand given, where it takes one. -/
theorem withOperand_of_decode {w : CmdWord} {operand : List Byte} {i : Instr} (h : decode w operand = .ok i) :
    i.withOperand operand = i := by
  obtain ⟨hwf, rfl⟩ := spelledBy_of_decode h
  rw [decode_encodeWord hwf] at h
  exact Except.ok.inj h

/-- Settles O9: the word is the command's own, and so the command is the same with the operand given. -/
theorem encodeOfDecodeIsTheWord : Obligations.EncodeOfDecodeIsTheWord := by
  intro w operand i h
  obtain ⟨hwf, hw⟩ := spelledBy_of_decode h
  have hop := withOperand_of_decode h
  refine ⟨hwf, hw, ?_⟩
  cases i with
  | egInit p =>
    cases hop
    exact .inl rfl
  | avInit p =>
    cases hop
    exact .inl rfl
  | vuDec b =>
    cases hop
    exact .inl rfl
  | egRdbit | egRdbits _ | egRdue | egRdse | egSkue | egSkse | avRdbit | avRdbits _ =>
    exact .inr ⟨nofun, nofun, nofun⟩

/-- Settles O54: legality is read off the word, and the word of a command that takes no operand decodes to that command
with every operand. -/
theorem superfluousOperandIsIgnored : Obligations.SuperfluousOperandIsIgnored := by
  refine fun w operand => ⟨Machine.isOk_decode w operand, fun i h heg hav hvu => ?_⟩
  obtain ⟨hwf, rfl⟩ := spelledBy_of_decode h
  rw [decode_encodeWord hwf, Instr.withOperand_of_noOperand operand heg hav hvu]

/-! ### The opcode map -/

/-- The word of a command selects the command's row of the opcode map and no other. -/
theorem encodeWord_selects_row (i : Instr) :
    (opcodeRows.filter fun r => r.selects (encodeWord i)).map OpcodeRow.mnemonic = [i.mnemonic] := by
  open Laws.EncodedWordSelectsItsRow in
  cases i with
  | egInit p => exact egInit p
  | egRdbit => exact egRdbit
  | egRdbits n => exact egRdbits n
  | egRdue => exact egRdue
  | egRdse => exact egRdse
  | egSkue => exact egSkue
  | egSkse => exact egSkse
  | avInit p => exact avInit p
  | avRdbit => exact avRdbit
  | avRdbits n => exact avRdbits n
  | vuDec b => exact vuDec b

/-- A row with every bit in its mask selects its own pattern alone. -/
theorem eq_of_selects_full {r : OpcodeRow} {w : CmdWord} (hm : r.mask = 0xFFFF) (h : r.selects w = true) :
    w = r.pattern := by
  have hp : w &&& r.mask = r.pattern := beq_iff_eq.1 h
  rw [← hp, hm, show (0xFFFF : CmdWord) = BitVec.allOnes 16 from rfl, BitVec.and_allOnes]

/-- A row whose mask leaves the immediate out selects the words of its unit and operation with `RSV` at `000`. -/
theorem eq_of_selects_upper {r : OpcodeRow} {u : BitVec 2} {o : BitVec 3} {w : CmdWord} (hm : r.mask = 0xFF00)
    (hpat : r.pattern = cmdWord u o 0) (h : r.selects w = true) : cmdWord u o (immField w) = w := by
  have hp : w &&& r.mask = r.pattern := beq_iff_eq.1 h
  rw [hm, hpat] at hp
  have hu : unitField w = u := by
    rw [← unitField_cmdWord u o 0, ← hp, unitField, unitField, BitVec.extractLsb'_and,
      show (0xFF00 : CmdWord).extractLsb' 14 2 = BitVec.allOnes 2 by decide, BitVec.and_allOnes]
  have ho : opField w = o := by
    rw [← opField_cmdWord u o 0, ← hp, opField, opField, BitVec.extractLsb'_and,
      show (0xFF00 : CmdWord).extractLsb' 11 3 = BitVec.allOnes 3 by decide, BitVec.and_allOnes]
  have hr : rsvField w = 0 := by
    rw [← rsvField_cmdWord u o 0, ← hp, rsvField, rsvField, BitVec.extractLsb'_and,
      show (0xFF00 : CmdWord).extractLsb' 8 3 = BitVec.allOnes 3 by decide, BitVec.and_allOnes]
  exact cmdWord_eq_of_fields o hr (by rw [hu]) (by rw [ho])

/-- The rows of the opcode map: a legal pattern in full, or the pattern of one of the two `RDBITS` without the
immediate. -/
theorem opcodeRows_forms : ∀ r ∈ opcodeRows,
    (r.mask = 0xFFFF ∧ legalWord r.pattern = true) ∨
    (r.mask = 0xFF00 ∧ (r.pattern = cmdWord 0b00 0b011 0 ∨ r.pattern = cmdWord 0b01 0b011 0)) := by
  decide

theorem legalWord_of_spelledBy {w : CmdWord} {i : Instr} (h : SpelledBy w i) : legalWord w = true := by
  obtain ⟨hwf, rfl⟩ := h
  rw [legalWord, decode_encodeWord hwf]
  rfl

/-- A row of the opcode map selects legal words only. -/
theorem legalWord_of_selects {r : OpcodeRow} {w : CmdWord} (hr : r ∈ opcodeRows) (h : r.selects w = true) :
    legalWord w = true := by
  rcases opcodeRows_forms r hr with ⟨hm, hlegal⟩ | ⟨hm, hpat | hpat⟩
  · rwa [eq_of_selects_full hm h]
  · exact legalWord_of_spelledBy (spelledBy_egRdbits (eq_of_selects_upper hm hpat h))
  · exact legalWord_of_spelledBy (spelledBy_avRdbits (eq_of_selects_upper hm hpat h))

/-- Settles O10: a word that decodes is the word of its command and selects that command's row; the rows select legal
words only, and a word that does not decode is not legal. -/
theorem decoderAgreesWithTheOpcodeMap : Obligations.DecoderAgreesWithTheOpcodeMap := by
  intro w operand
  have hlegal := Machine.isOk_decode w operand
  cases hd : decode w operand with
  | ok i =>
    obtain ⟨-, rfl⟩ := spelledBy_of_decode hd
    exact encodeWord_selects_row i
  | error e =>
    refine List.filter_eq_nil_iff.2 fun r hr hsel => ?_
    rw [hd, legalWord_of_selects hr hsel] at hlegal
    cases hlegal

/-! ### The clauses of R57 -/

theorem isOk_withoutImmediate_iff (w : CmdWord) (i : Instr) :
    (withoutImmediate w i).isOk = true ↔ (immField w).toNat = 0 := by
  rw [Machine.isOk_withoutImmediate, decide_eq_true_iff, ← BitVec.toNat_inj]
  rfl

/-- The legal words of unit EG: an operation other than 0, and no immediate unless the operation is `RDBITS`. -/
theorem isOk_decodeEg_iff (w : CmdWord) (operand : List Byte) :
    (decodeEg w operand).isOk = true ↔
      (opField w).toNat ≠ 0 ∧ ((immField w).toNat = 0 ∨ (opField w).toNat = 3) := by
  have := (opField w).isLt
  rw [decodeEg]
  split
  case h_3 ho => exact iff_of_true rfl (by omega)
  case h_8 =>
    simp only [imp_false] at *
    exact iff_of_false Bool.false_ne_true (by omega)
  all_goals
    rw [isOk_withoutImmediate_iff]
    omega

/-- The legal words of unit AV: operations 1 to 3, and no immediate unless the operation is `RDBITS`. -/
theorem isOk_decodeAv_iff (w : CmdWord) (operand : List Byte) :
    (decodeAv w operand).isOk = true ↔
      (opField w).toNat ≠ 0 ∧ (opField w).toNat < 4 ∧ ((immField w).toNat = 0 ∨ (opField w).toNat = 3) := by
  rw [decodeAv]
  split
  case h_3 ho => exact iff_of_true rfl (by omega)
  case h_4 =>
    simp only [imp_false] at *
    exact iff_of_false Bool.false_ne_true (by omega)
  all_goals
    rw [isOk_withoutImmediate_iff]
    omega

/-- The legal words of unit VU: operation 1 without immediate. -/
theorem isOk_decodeVu_iff (w : CmdWord) (operand : List Byte) :
    (decodeVu w operand).isOk = true ↔ (opField w).toNat = 1 ∧ (immField w).toNat = 0 := by
  rw [decodeVu]
  split
  case h_1 ho => rw [isOk_withoutImmediate_iff, ho]; simp
  case h_2 =>
    simp only [imp_false] at *
    exact iff_of_false Bool.false_ne_true (by omega)

/-- The legal words, by the numbers in their fields. -/
theorem legalWord_iff (w : CmdWord) :
    legalWord w = true ↔ (rsvField w).toNat = 0 ∧
      (((unitField w).toNat = 0 ∧ (opField w).toNat ≠ 0 ∧ ((immField w).toNat = 0 ∨ (opField w).toNat = 3)) ∨
       ((unitField w).toNat = 1 ∧ (opField w).toNat ≠ 0 ∧ (opField w).toNat < 4 ∧
          ((immField w).toNat = 0 ∨ (opField w).toNat = 3)) ∨
       ((unitField w).toNat = 2 ∧ (opField w).toNat = 1 ∧ (immField w).toNat = 0)) := by
  rw [legalWord, decode]
  by_cases hr : rsvField w = 0
  · have hrsv : (rsvField w).toNat = 0 := BitVec.toNat_inj.2 hr
    rw [if_neg (not_not.2 hr)]
    split
    case h_1 hu => rw [isOk_decodeEg_iff]; omega
    case h_2 hu => rw [isOk_decodeAv_iff]; omega
    case h_3 hu => rw [isOk_decodeVu_iff]; omega
    case h_4 =>
      simp only [imp_false] at *
      exact iff_of_false Bool.false_ne_true (by omega)
  · have hrsv : (rsvField w).toNat ≠ 0 := fun h => hr (BitVec.toNat_inj.1 h)
    rw [if_pos hr]
    exact iff_of_false Bool.false_ne_true fun h => hrsv h.1

/-- Settles O11: the clauses deny the legal words, with each field read off the number. -/
theorem illegalWordsAreThoseOfTheSevenClauses : Obligations.IllegalWordsAreThoseOfTheSevenClauses := by
  intro w
  have hw := w.isLt
  have hiff := legalWord_iff w
  rw [unitField_toNat, opField_toNat, rsvField_toNat, immField_toNat] at hiff
  rw [← Bool.not_eq_true, hiff]
  omega

/-! ### The number of legal words -/

/-- The commands that can be written with an empty operand: nine without immediate and 256 of each `RDBITS`. -/
def writableCommands : List Instr :=
  ([.egInit [], .egRdbit, .egRdue, .egRdse, .egSkue, .egSkse, .avInit [], .avRdbit, .vuDec []] : List Instr) ++
    ((List.range 256).map Instr.egRdbits ++ (List.range 256).map Instr.avRdbits)

theorem mem_writableCommands (i : Instr) : i ∈ writableCommands ↔ i.wf = true ∧ i.withOperand [] = i := by
  cases i with
  | egRdbits n | avRdbits n =>
    simp only [wf_egRdbits, wf_avRdbits, immediateFits_iff, Instr.withOperand, and_true]
    simp [writableCommands]
    omega
  | egInit p | avInit p | vuDec p => simp [writableCommands, Instr.withOperand, Instr.wf, eq_comm]
  | egRdbit | egRdue | egRdse | egSkue | egSkse | avRdbit => simp [writableCommands, Instr.withOperand, Instr.wf]

theorem nodup_writableCommands : writableCommands.Nodup := by
  refine List.nodup_append'.2 ⟨by decide, List.nodup_append'.2 ⟨?_, ?_, ?_⟩, ?_⟩
  · exact List.nodup_range.map fun _ _ h => Instr.egRdbits.inj h
  · exact List.nodup_range.map fun _ _ h => Instr.avRdbits.inj h
  · simp only [List.disjoint_left, List.mem_map]
    rintro _ ⟨n, -, rfl⟩ ⟨m, -, h⟩
    cases h
  · simp only [List.disjoint_left, List.mem_append, List.mem_map]
    rintro _ hi (⟨n, -, rfl⟩ | ⟨n, -, rfl⟩) <;> simp at hi

/-- The words that spell a command are those of the writable commands. -/
theorem legalWord_iff_writable (w : CmdWord) : legalWord w = true ↔ ∃ i ∈ writableCommands, encodeWord i = w := by
  constructor
  · intro h
    rw [legalWord] at h
    cases hd : decode w [] with
    | ok i =>
      obtain ⟨hwf, hw⟩ := spelledBy_of_decode hd
      exact ⟨i, (mem_writableCommands i).2 ⟨hwf, withOperand_of_decode hd⟩, hw⟩
    | error e =>
      rw [hd] at h
      cases h
  · rintro ⟨i, hi, hw⟩
    obtain ⟨hwf, -⟩ := (mem_writableCommands i).1 hi
    exact legalWord_of_spelledBy ⟨hwf, hw⟩

/-- Different writable commands have different words: the decoder tells them apart. -/
theorem encodeWord_injOn_writable {i j : Instr} (hi : i ∈ writableCommands) (hj : j ∈ writableCommands)
    (h : encodeWord i = encodeWord j) : i = j := by
  obtain ⟨hiwf, hiop⟩ := (mem_writableCommands i).1 hi
  obtain ⟨hjwf, hjop⟩ := (mem_writableCommands j).1 hj
  have hd := decode_encodeWord hiwf []
  rw [h, decode_encodeWord hjwf, hiop, hjop] at hd
  exact (Except.ok.inj hd).symm

/-- Settles O12: the legal words are the words of the 521 writable commands, one word each. -/
theorem legalWordsNumber521 : Obligations.LegalWordsNumber521 := by
  have hperm : ((List.range 65536).filter (fun w => legalWord (BitVec.ofNat 16 w))).Perm
      (writableCommands.map fun i => (encodeWord i).toNat) := by
    refine (List.perm_ext_iff_of_nodup (List.nodup_range.filter _) ?_).2 fun w => ?_
    · exact nodup_writableCommands.map_on fun i hi j hj h =>
        encodeWord_injOn_writable hi hj (BitVec.eq_of_toNat_eq h)
    · rw [List.mem_filter, List.mem_range, legalWord_iff_writable, List.mem_map]
      constructor
      · rintro ⟨hw, i, hi, h⟩
        exact ⟨i, hi, by rw [h, BitVec.toNat_ofNat, Nat.mod_eq_of_lt hw]⟩
      · rintro ⟨i, hi, rfl⟩
        exact ⟨(encodeWord i).isLt, i, hi, by rw [BitVec.ofNat_toNat, BitVec.setWidth_eq]⟩
  rw [Obligations.LegalWordsNumber521, hperm.length_eq, List.length_map, writableCommands, List.length_append,
    List.length_append, List.length_map, List.length_map, List.length_range]
  rfl

/-! ### Words written out -/

/-- Settles O13: each word, built from its bits, is the word of its command. -/
theorem writtenOutWordsDecode : Obligations.WrittenOutWordsDecode :=
  ⟨decode_encodeWord (i := .egInit [0x40]) rfl [0x40], decode_encodeWord (i := .egRdbit) rfl [],
    decode_encodeWord (i := .egRdbits 32) rfl [], decode_encodeWord (i := .egRdse) rfl [],
    decode_encodeWord (i := .avRdbits 64) rfl [], decode_encodeWord (i := .vuDec [0xAC, 0x02]) rfl [0xAC, 0x02]⟩

end Sys2Proof
end

section
/-! SUPPORT and PROOF. What a command can do, in every state, said once: how far its reader moves, with what kinds it
fails, and what its response holds (spec/10_state.md section 5, spec/60_exceptions.md sections 1 and 2). -/

namespace Sys2Proof.Machine

/-! ### Steps that move a reader forward -/

/-- The steps move a reader from bit `p` of a payload of `T` bits by at most `most` bits, never across its end;
`place q` is the reader at bit `q`. If they fail, then with one of `kinds`, and `EXHAUSTED` only at or past the end. -/
def Attempt.Advances {ρ α : Type} (place : Nat → ρ) (p T most : Nat) (kinds : List Kind) : Attempt ρ α → Prop
  | .done _ r => ∃ m, m ≤ most ∧ p + m ≤ max p T ∧ r = place (p + m)
  | .fail k r => ∃ m, m ≤ most ∧ p + m ≤ max p T ∧ r = place (p + m) ∧ k ∈ kinds ∧ k ≠ .none ∧
      (k = .exhausted → T ≤ p + m)
  | .stop _ => True

section
variable {ρ α β : Type} {place : Nat → ρ} {p T most more : Nat} {kinds : List Kind} {a : Attempt ρ α}

theorem Attempt.advances_done (v : α) : (Attempt.done v (place p)).Advances place p T most kinds :=
  ⟨0, by omega, by omega, rfl⟩

theorem Attempt.advances_fail {k : Kind} (hk : k ∈ kinds) (hnone : k ≠ .none) (hex : k = .exhausted → T ≤ p) :
    (Attempt.fail k (place p) : Attempt ρ α).Advances place p T most kinds :=
  ⟨0, by omega, by omega, rfl, hk, hnone, hex⟩

/-- Steps one after the other move the reader by the sum of their moves. -/
theorem Attempt.Advances.bind (h : a.Advances place p T most kinds) {f : α → ρ → Attempt ρ β}
    (hf : ∀ v q, a = .done v (place q) → (f v (place q)).Advances place q T more kinds) :
    (a.bind f).Advances place p T (more + most) kinds := by
  cases a with
  | done v r =>
    obtain ⟨m, hm, hT, rfl⟩ := h
    have hnext := hf v (p + m) rfl
    rw [Attempt.bind]
    generalize f v (place (p + m)) = b at hnext ⊢
    cases b with
    | done w r =>
      obtain ⟨n, hn, hnT, rfl⟩ := hnext
      exact ⟨m + n, by omega, by omega, by rw [Nat.add_assoc]⟩
    | fail k r =>
      obtain ⟨n, hn, hnT, rfl, hk, hnone, hex⟩ := hnext
      exact ⟨m + n, by omega, by omega, by rw [Nat.add_assoc], hk, hnone, fun h => by have := hex h; omega⟩
    | stop f => trivial
  | fail k r =>
    obtain ⟨m, hm, hT, hr, hk, hnone, hex⟩ := h
    exact ⟨m, by omega, hT, hr, hk, hnone, hex⟩
  | stop f => trivial

theorem Attempt.Advances.map (h : a.Advances place p T most kinds) (g : α → β) :
    (a.map g).Advances place p T most kinds :=
  Nat.zero_add most ▸ h.bind (more := 0) fun v _ _ => Attempt.advances_done (g v)

theorem Attempt.Advances.mono (h : a.Advances place p T most kinds) (hle : most ≤ more) :
    a.Advances place p T more kinds := by
  cases a with
  | done v r =>
    obtain ⟨m, hm, hrest⟩ := h
    exact ⟨m, by omega, hrest⟩
  | fail k r =>
    obtain ⟨m, hm, hrest⟩ := h
    exact ⟨m, by omega, hrest⟩
  | stop f => trivial

end

/-! ### Unit EG -/

/-- The steps move this EG reader by at most `most` bits. -/
abbrev EgReader.Advances (r : EgReader) {α : Type} (most : Nat) (kinds : List Kind) (a : Attempt EgReader α) : Prop :=
  a.Advances r.atPos r.pos (8 * r.len) most kinds

/-- The loop over the leading zeros, where it meets a one, has counted fewer than its bound. -/
theorem egPrefix_done_lt {more lz n : Nat} {r r' : EgReader} (h : egPrefix more lz r = .done n r') : n < lz + more := by
  rcases egPrefix_cases more lz r with ⟨z, hz, hc⟩ | hc | ⟨m, -, -, hc⟩ | hc
  all_goals
    rw [hc] at h
    cases h
  omega

section
variable {kinds : List Kind} (hex : .exhausted ∈ kinds)
include hex

theorem EgReader.advances_egBit (r : EgReader) : r.Advances 1 kinds (egBit r) := by
  rcases egBit_cases r with ⟨hlt, -, h⟩ | ⟨hend, h⟩ | h
  · rw [h]
    exact ⟨1, by omega, by omega, rfl⟩
  · rw [h]
    exact Attempt.advances_fail hex nofun fun _ => hend
  · rw [h]
    trivial

theorem EgReader.advances_egReadBits (n : Nat) (v : BitVec 32) (r : EgReader) :
    r.Advances n kinds (egReadBits n v r) := by
  induction n generalizing v r with
  | zero => exact Attempt.advances_done v
  | succ n ih =>
    exact (r.advances_egBit hex).bind fun b q _ => ih (egAppend v b) (r.atPos q)

theorem EgReader.advances_egPrefix (hmal : .malformedCode ∈ kinds) (more lz : Nat) (r : EgReader) :
    r.Advances more kinds (egPrefix more lz r) := by
  induction more generalizing lz r with
  | zero => exact Attempt.advances_fail hmal nofun nofun
  | succ n ih =>
    refine (r.advances_egBit hex).bind fun b q _ => ?_
    cases b with
    | true => exact Attempt.advances_done lz
    | false => exact ih (lz + 1) (r.atPos q)

/-- An unsigned code takes at most 32 bits up to its one and 31 after it (spec/70_reset_and_hazards.md R159). -/
theorem EgReader.advances_egDecodeUe (hmal : .malformedCode ∈ kinds) (r : EgReader) :
    r.Advances 63 kinds (egDecodeUe r) := by
  refine (r.advances_egPrefix hex hmal 32 0).bind (more := 31) fun lz q h => ?_
  have hlz := egPrefix_done_lt h
  by_cases h0 : lz = 0
  · rw [if_pos h0]
    exact Attempt.advances_done 0
  · rw [if_neg h0]
    exact (((r.atPos q).advances_egReadBits hex lz 0).mono (by omega)).map _

theorem EgReader.advances_egReadField (hw : .invalidWidth ∈ kinds) (n : Nat) (r : EgReader) :
    r.Advances (if n ≤ 32 then n else 0) kinds (egReadField n r) := by
  by_cases hn : n ≤ 32
  · rw [if_pos hn, egReadField_narrow hn]
    exact r.advances_egReadBits hex n 0
  · rw [egReadField_wide (by omega)]
    exact Attempt.advances_fail hw nofun nofun

end

/-- A read command of unit EG moves its reader within its bound, and fails with its own kinds. -/
theorem EgReader.advances_egSteps {i : Instr} (hu : i.unit = .eg) (hi : isInit i = false) (r : EgReader) :
    r.Advances (mostBits i) (allowedKinds i) (egSteps i r) := by
  cases i with
  | egRdbit => exact (r.advances_egBit (by decide)).map _
  | egRdbits n => exact r.advances_egReadField (by simp [allowedKinds]) (by simp [allowedKinds]) n
  | egRdue => exact r.advances_egDecodeUe (by decide) (by decide)
  | egRdse => exact (r.advances_egDecodeUe (by decide) (by decide)).map _
  | egSkue => exact (r.advances_egDecodeUe (by decide) (by decide)).map _
  | egSkse => exact ((r.advances_egDecodeUe (by decide) (by decide)).map _).map _
  | egInit _ => cases hi
  | avInit _ | avRdbit | avRdbits _ | vuDec _ => cases hu

/-! ### Unit AV -/

/-- The steps move this AV reader by at most `most` bits of its global index. -/
abbrev AvReader.Advances (r : AvReader) {α : Type} (most : Nat) (kinds : List Kind) (a : Attempt AvReader α) : Prop :=
  a.Advances r.atPos r.globalPos (8 * r.len) most kinds

/-- Where `r` stands is `r` moved to where it stands. -/
theorem AvReader.advances_done (r : AvReader) {α : Type} (v : α) {most : Nat} {kinds : List Kind} :
    r.Advances most kinds (.done v r) := by
  have h := Attempt.advances_done (place := r.atPos) (p := r.globalPos) (T := 8 * r.len) (most := most)
    (kinds := kinds) v
  rwa [r.atPos_self] at h

theorem AvReader.advances_fail (r : AvReader) {α : Type} {most : Nat} {kinds : List Kind} {k : Kind} (hk : k ∈ kinds)
    (hnone : k ≠ .none) (hex : k = .exhausted → 8 * r.len ≤ r.globalPos) :
    r.Advances most kinds (.fail k r : Attempt AvReader α) := by
  have h := Attempt.advances_fail (α := α) (place := r.atPos) (most := most) hk hnone hex
  rwa [r.atPos_self] at h

section
variable {kinds : List Kind} (hex : .exhausted ∈ kinds)
include hex

theorem AvReader.advances_avBit (r : AvReader) : r.Advances 1 kinds (avBit r) := by
  have hbyte := r.globalPos_byte
  rcases avBit_cases r with ⟨hlt, -, h⟩ | ⟨hend, h⟩ | h
  · rw [h]
    exact ⟨1, by omega, by omega, rfl⟩
  · rw [h]
    exact r.advances_fail hex nofun fun _ => by omega
  · rw [h]
    trivial

theorem AvReader.advances_avReadBits (n : Nat) (v : BitVec 64) (r : AvReader) :
    r.Advances n kinds (avReadBits n v r) := by
  induction n generalizing v r with
  | zero => exact r.advances_done v
  | succ n ih =>
    refine (r.advances_avBit hex).bind fun b q _ => ?_
    have h := ih (avAppend v b) (r.atPos q)
    rwa [AvReader.Advances, AvReader.atPos_globalPos] at h

theorem AvReader.advances_avReadField (hw : .invalidWidth ∈ kinds) (n : Nat) (r : AvReader) :
    r.Advances (if n ≤ 64 then n else 0) kinds (avReadField n r) := by
  by_cases hn : n ≤ 64
  · rw [if_pos hn, avReadField_narrow hn]
    exact r.advances_avReadBits hex n 0
  · rw [avReadField_wide (by omega)]
    exact r.advances_fail hw nofun nofun

end

/-- A read command of unit AV moves its reader within its bound, and fails with its own kinds. -/
theorem AvReader.advances_avSteps {i : Instr} (hu : i.unit = .av) (hi : isInit i = false) (r : AvReader) :
    r.Advances (mostBits i) (allowedKinds i) (avSteps i r) := by
  cases i with
  | avRdbit => exact (r.advances_avBit (by decide)).map _
  | avRdbits n => exact r.advances_avReadField (by simp [allowedKinds]) (by simp [allowedKinds]) n
  | avInit _ => cases hi
  | egInit _ | egRdbit | egRdbits _ | egRdue | egRdse | egSkue | egSkse | vuDec _ => cases hu

/-! ### The response of a command -/

/-- The response is one the command may answer: its kind is one the table gives the command, and its fields hold the
ranges of spec/30_encoding.md R55. -/
structure Response.Answers (i : Instr) (r : Response) : Prop where
  kind_mem : r.kind ∈ allowedKinds i
  legal : r.Legal
  value_zero : i = .egSkue ∨ i = .egSkse ∨ isInit i = true → r.value = 0
  value_lt : i.unit = .eg → r.value.toNat < 2 ^ 32
  consumed_zero : i.unit ≠ .vu → r.consumed = 0
  consumed_range : i.unit = .vu → r.ok = true → 1 ≤ r.consumed.toNat ∧ r.consumed.toNat ≤ 10

/-- Every command may succeed. -/
theorem none_mem_allowedKinds (i : Instr) : .none ∈ allowedKinds i := by
  cases i <;> exact List.mem_cons_self

theorem Response.answers_failure {i : Instr} {k : Kind} (hk : k ∈ allowedKinds i) (hnone : k ≠ .none) :
    (Response.failure k).Answers i where
  kind_mem := hk
  legal := Response.failure_legal hnone
  value_zero _ := rfl
  value_lt _ := Nat.two_pow_pos 32
  consumed_zero _ := rfl
  consumed_range _ h := by cases h

theorem Response.answers_success {i : Instr} {v : BitVec 64} (hvu : i.unit ≠ .vu)
    (h0 : i = .egSkue ∨ i = .egSkse ∨ isInit i = true → v = 0) (hlt : i.unit = .eg → v.toNat < 2 ^ 32) :
    (Response.success v).Answers i where
  kind_mem := none_mem_allowedKinds i
  legal := Response.success_legal v
  value_zero := h0
  value_lt := hlt
  consumed_zero _ := rfl
  consumed_range h := absurd h hvu

theorem Attempt.map_eq_done {ρ α β : Type} {a : Attempt ρ α} {g : α → β} {v : β} {r : ρ} (h : a.map g = .done v r) :
    ∃ u, a = .done u r ∧ v = g u := by
  cases a with
  | done u r' =>
    cases h
    exact ⟨u, rfl, rfl⟩
  | fail k r' => cases h
  | stop f => cases h

/-- The two skips discard their value. -/
theorem egSteps_skip_value {i : Instr} {r r' : EgReader} {v : BitVec 32} (hi : i = .egSkue ∨ i = .egSkse)
    (h : egSteps i r = .done v r') : v = 0 := by
  rcases hi with rfl | rfl
  · obtain ⟨-, -, hv⟩ := Attempt.map_eq_done h
    exact hv
  · obtain ⟨-, -, hv⟩ := Attempt.map_eq_done h
    exact hv

theorem vuResponse_answers (bytes : List Byte) : (vuResponse bytes).Answers (.vuDec bytes) := by
  rcases vuResponse_cases bytes with ⟨-, h⟩ | ⟨t, ht, -, -, h⟩
  · rw [h]
    exact Response.answers_failure (by simp [allowedKinds]) nofun
  · rw [h]
    exact {
      kind_mem := none_mem_allowedKinds _
      legal := Response.successVar_legal _ _
      value_zero := by simp [isInit, Instr.payload?]
      value_lt := nofun
      consumed_zero := fun h => absurd rfl h
      consumed_range := fun _ _ => by
        have : (BitVec.ofNat 4 (t + 1)).toNat = t + 1 := by rw [BitVec.toNat_ofNat]; omega
        rw [Response.successVar, this]
        omega }

/-! ### Every command -/

/-- What a command answered with `resp` does to the state, by the form of the command: a construction replaces the reader
of its unit, a read moves it forward within the command's bound and the payload, and `VU.DEC` touches none. -/
inductive Effect (s : State) (resp : Response) : Instr → State → Prop
  | egInit (p : List Byte) : Effect s resp (.egInit p) ((s.withEg (.construct p)).respond resp)
  | avInit (p : List Byte) : Effect s resp (.avInit p) ((s.withAv (.construct p)).respond resp)
  | egRead {i : Instr} {m : Nat} (hu : i.unit = .eg) (hi : isInit i = false) (hm : m ≤ mostBits i)
      (hT : s.eg.pos + m ≤ max s.eg.pos (8 * s.eg.len))
      (hex : resp.kind = .exhausted → 8 * s.eg.len ≤ s.eg.pos + m) :
      Effect s resp i ((s.withEg (s.eg.atPos (s.eg.pos + m))).respond resp)
  | avRead {i : Instr} {m : Nat} (hu : i.unit = .av) (hi : isInit i = false) (hm : m ≤ mostBits i)
      (hT : s.av.globalPos + m ≤ max s.av.globalPos (8 * s.av.len))
      (hex : resp.kind = .exhausted → 8 * s.av.len ≤ s.av.globalPos + m) :
      Effect s resp i ((s.withAv (s.av.atPos (s.av.globalPos + m))).respond resp)
  | vuDec (bytes : List Byte) : Effect s resp (.vuDec bytes) (s.respond resp)

theorem Effect.responses {i : Instr} {s t : State} {resp : Response} (h : Effect s resp i t) :
    t.responses = s.responses ++ [resp] := by
  cases h <;> rfl

theorem effect_of_egRead {i : Instr} {s t : State} (hu : i.unit = .eg) (hi : isInit i = false)
    (h : exec i s = .next t) : ∃ resp, resp.Answers i ∧ Effect s resp i t := by
  have hadv := s.eg.advances_egSteps hu hi
  rw [exec_eg hu] at h
  rcases State.finishEg_next h with ⟨v, r, ha, rfl⟩ | ⟨k, r, ha, rfl⟩
  · rw [ha] at hadv
    obtain ⟨m, hm, hT, rfl⟩ := hadv
    refine ⟨_, Response.answers_success (by rw [hu]; nofun) (fun h0 => ?_) (fun _ => ?_), .egRead hu hi hm hT nofun⟩
    · have hskip : i = .egSkue ∨ i = .egSkse := by simpa [hi] using h0
      rw [egSteps_skip_value hskip ha]
      rfl
    · rw [BitVec.toNat_setWidth_of_le (by omega)]
      exact v.isLt
  · rw [ha] at hadv
    obtain ⟨m, hm, hT, rfl, hk, hnone, hex⟩ := hadv
    exact ⟨_, Response.answers_failure hk hnone, .egRead hu hi hm hT hex⟩

theorem effect_of_avRead {i : Instr} {s t : State} (hu : i.unit = .av) (hi : isInit i = false)
    (h : exec i s = .next t) : ∃ resp, resp.Answers i ∧ Effect s resp i t := by
  have hadv := s.av.advances_avSteps hu hi
  rw [exec_av hu] at h
  rcases State.finishAv_next h with ⟨v, r, ha, rfl⟩ | ⟨k, r, ha, rfl⟩
  · rw [ha] at hadv
    obtain ⟨m, hm, hT, rfl⟩ := hadv
    have hskip : ¬ (i = .egSkue ∨ i = .egSkse ∨ isInit i = true) := by
      rintro (rfl | rfl | h0)
      · cases hu
      · cases hu
      · rw [hi] at h0
        cases h0
    exact ⟨_, Response.answers_success (by rw [hu]; nofun) (fun h0 => absurd h0 hskip) (by rw [hu]; nofun),
      .avRead hu hi hm hT nofun⟩
  · rw [ha] at hadv
    obtain ⟨m, hm, hT, rfl, hk, hnone, hex⟩ := hadv
    exact ⟨_, Response.answers_failure hk hnone, .avRead hu hi hm hT hex⟩

/-- Everything a command that answers a next state has done: it has answered a response it may give, with its effect. -/
theorem exec_effect {i : Instr} {s t : State} (h : exec i s = .next t) :
    ∃ resp, resp.Answers i ∧ Effect s resp i t := by
  cases i with
  | egInit p =>
    cases h
    exact ⟨_, Response.answers_success nofun (fun _ => rfl) (fun _ => Nat.two_pow_pos 32), .egInit p⟩
  | avInit p =>
    cases h
    exact ⟨_, Response.answers_success nofun (fun _ => rfl) nofun, .avInit p⟩
  | egRdbit | egRdbits _ | egRdue | egRdse | egSkue | egSkse => exact effect_of_egRead rfl rfl h
  | avRdbit | avRdbits _ => exact effect_of_avRead rfl rfl h
  | vuDec bytes =>
    cases h
    exact ⟨_, vuResponse_answers bytes, .vuDec bytes⟩

end Sys2Proof.Machine
end

section
/-! PROOF. The responses of the commands, and what a command changes and leaves alone: each statement is read off what a
command can do. -/

namespace Sys2Proof.Machine

/-! ### Responses -/

/-- Settles O38: the kind of the one response is among those of the command. -/
theorem commandsReportOnlyTheirKinds : Obligations.CommandsReportOnlyTheirKinds := by
  intro i s t h
  obtain ⟨resp, hresp, heffect⟩ := exec_effect h
  exact ⟨resp, heffect.responses, hresp.kind_mem⟩

/-- Settles O40: the ranges are those of a response the command may answer. -/
theorem responseFieldsHoldTheirRanges : Obligations.ResponseFieldsHoldTheirRanges := by
  intro i s t h
  obtain ⟨resp, hresp, heffect⟩ := exec_effect h
  obtain ⟨hok, hzero⟩ := hresp.legal
  exact ⟨resp, heffect.responses, hok, hzero, hresp.value_zero, hresp.value_lt, hresp.consumed_zero,
    hresp.consumed_range⟩

/-- Settles O41: a read that ends `EXHAUSTED` is at or past the end, and from a legal position it is not past it. -/
theorem exhaustedReaderRestsAtTheEnd : Obligations.ExhaustedReaderRestsAtTheEnd := by
  intro i s t r hs h hr hkind
  obtain ⟨heg, hav, -⟩ := hs
  obtain ⟨resp, hresp, heffect⟩ := exec_effect h
  obtain rfl : resp = r := by simpa [heffect.responses] using hr
  have hmem := hresp.kind_mem
  rw [hkind] at hmem
  cases heffect with
  | egInit p => simp [allowedKinds] at hmem
  | avInit p => simp [allowedKinds] at hmem
  | @egRead i m hu _ _ hT hex =>
    have hpos : s.eg.pos ≤ 8 * s.eg.len := heg.2
    have hend := hex hkind
    have heq : s.eg.pos + m = 8 * s.eg.len := by omega
    exact ⟨fun _ => heq, by rw [hu]; nofun⟩
  | @avRead i m hu _ _ hT hex =>
    have hpos := hav.globalPos_le
    have hend := hex hkind
    have heq : s.av.globalPos + m = 8 * s.av.len := by omega
    refine ⟨by rw [hu]; nofun, fun _ => ?_⟩
    rw [heq, AvReader.atPos_end]
    exact ⟨rfl, rfl⟩
  | vuDec bytes => exact ⟨nofun, nofun⟩

/-! ### Frames -/

/-- Settles O43: a read moves a position, and only the `INIT` of a reader replaces its payload. -/
theorem onlyInitChangesAPayload : Obligations.OnlyInitChangesAPayload := by
  intro i s t h
  obtain ⟨resp, -, heffect⟩ := exec_effect h
  cases heffect with
  | egInit p => exact ⟨fun hne => absurd rfl (hne p), fun _ => ⟨rfl, fun _ => rfl⟩⟩
  | avInit p => exact ⟨fun _ => ⟨rfl, fun _ => rfl⟩, fun hne => absurd rfl (hne p)⟩
  | egRead | avRead | vuDec => exact ⟨fun _ => ⟨rfl, fun _ => rfl⟩, fun _ => ⟨rfl, fun _ => rfl⟩⟩

/-- Settles O44: a command replaces the reader of its own unit or moves it. -/
theorem commandsWriteOnlyTheirUnit : Obligations.CommandsWriteOnlyTheirUnit := by
  intro i s t h
  obtain ⟨resp, -, heffect⟩ := exec_effect h
  cases heffect with
  | egInit p => exact ⟨fun hne => absurd rfl hne, fun _ => rfl, rfl, nofun⟩
  | avInit p => exact ⟨fun _ => rfl, fun hne => absurd rfl hne, rfl, nofun⟩
  | egRead hu => exact ⟨fun hne => absurd hu hne, fun _ => rfl, rfl, fun _ => ⟨rfl, rfl⟩⟩
  | avRead hu => exact ⟨fun _ => rfl, fun hne => absurd hu hne, rfl, fun _ => ⟨rfl, rfl⟩⟩
  | vuDec bytes => exact ⟨fun _ => rfl, fun _ => rfl, rfl, fun _ => ⟨rfl, rfl⟩⟩

/-! ### Positions -/

/-- A command that is no `INIT` is none of the two. -/
theorem ne_init_of_isInit {i : Instr} (hi : isInit i = false) (p : List Byte) : i ≠ .egInit p ∧ i ≠ .avInit p := by
  constructor
  · rintro rfl
    cases hi
  · rintro rfl
    cases hi

/-- Settles O48: a read moves its reader forward, and a constructed reader stands at its first bit. -/
theorem positionsNeverDecrease : Obligations.PositionsNeverDecrease := by
  intro i s t h
  obtain ⟨resp, -, heffect⟩ := exec_effect h
  cases heffect with
  | egInit p => exact ⟨fun hne => absurd rfl (hne p), fun _ => le_rfl, fun _ _ => rfl, nofun⟩
  | avInit p => exact ⟨fun _ => le_rfl, fun hne => absurd rfl (hne p), nofun, fun _ _ => rfl⟩
  | egRead _ hi =>
    exact ⟨fun _ => Nat.le_add_right _ _, fun _ => le_rfl, fun p hp => absurd hp (ne_init_of_isInit hi p).1,
      fun p hp => absurd hp (ne_init_of_isInit hi p).2⟩
  | avRead _ hi =>
    exact ⟨fun _ => le_rfl, fun _ => by simp, fun p hp => absurd hp (ne_init_of_isInit hi p).1,
      fun p hp => absurd hp (ne_init_of_isInit hi p).2⟩
  | vuDec bytes => exact ⟨fun _ => le_rfl, fun _ => le_rfl, nofun, nofun⟩

/-- Settles O49: the bound is the one of the moves a read can make. -/
theorem commandsConsumeBoundedBits : Obligations.CommandsConsumeBoundedBits := by
  intro i s t h hi
  obtain ⟨resp, -, heffect⟩ := exec_effect h
  cases heffect with
  | egInit p => cases hi
  | avInit p => cases hi
  | egRead hu _ hm => exact ⟨fun _ => Nat.add_le_add_left hm _, by rw [hu]; nofun⟩
  | avRead hu _ hm => exact ⟨by rw [hu]; nofun, fun _ => by simpa using hm⟩
  | vuDec bytes => exact ⟨nofun, nofun⟩

end Sys2Proof.Machine
end

section
/-! SUPPORT and PROOF. The invariant of spec/10_state.md section 3 (R10, R13, R14) and the widths of spec/00_scope.md
section 4: every step keeps the state legal, no step stops in a legal state, and no register outgrows its width. -/

namespace Sys2Proof.Machine

/-! ### Legal states -/

theorem EgReader.construct_legal (p : List Byte) : (EgReader.construct p).Legal :=
  ⟨Memory.holds_ofBytes p, Nat.zero_le _⟩

theorem AvReader.construct_legal (p : List Byte) : (AvReader.construct p).Legal :=
  ⟨Memory.holds_ofBytes p, Nat.zero_le _, fun _ => rfl⟩

theorem EgReader.legal_atPos {r : EgReader} (h : Memory.Holds r.buf r.len) {p : Nat} (hp : p ≤ 8 * r.len) :
    (r.atPos p).Legal := ⟨h, hp⟩

/-- Settles O2: both readers are reset readers, and nothing has been answered. -/
theorem resetStateIsLegal : Obligations.ResetStateIsLegal :=
  ⟨EgReader.reset_legal, AvReader.reset_legal, nofun⟩

theorem State.Legal.respond {s : State} (hs : s.Legal) {r : Response} (hr : r.Legal) : (s.respond r).Legal := by
  obtain ⟨heg, hav, hresp⟩ := hs
  refine ⟨heg, hav, fun q hq => ?_⟩
  rcases List.mem_append.1 hq with hq | hq
  · exact hresp q hq
  · rwa [List.mem_singleton.1 hq]

theorem State.Legal.withEg {s : State} (hs : s.Legal) {r : EgReader} (hr : r.Legal) : (s.withEg r).Legal := by
  obtain ⟨-, hav, hresp⟩ := hs
  exact ⟨hr, hav, hresp⟩

theorem State.Legal.withAv {s : State} (hs : s.Legal) {r : AvReader} (hr : r.Legal) : (s.withAv r).Legal := by
  obtain ⟨heg, -, hresp⟩ := hs
  exact ⟨heg, hr, hresp⟩

/-- Every command keeps the state legal: it constructs a legal reader, or moves one inside its payload. -/
theorem State.Legal.exec {i : Instr} {s t : State} (hs : s.Legal) (h : exec i s = .next t) : t.Legal := by
  have ⟨heg, hav, _⟩ := hs
  obtain ⟨resp, hresp, heffect⟩ := exec_effect h
  cases heffect with
  | egInit p => exact (hs.withEg (EgReader.construct_legal p)).respond hresp.legal
  | avInit p => exact (hs.withAv (AvReader.construct_legal p)).respond hresp.legal
  | egRead _ _ _ hT =>
    have hpos : s.eg.pos ≤ 8 * s.eg.len := heg.2
    exact (hs.withEg (EgReader.legal_atPos heg.1 (by omega))).respond hresp.legal
  | avRead _ _ _ hT =>
    have hpos := hav.globalPos_le
    exact (hs.withAv (AvReader.legal_atPos hav.1 (by omega))).respond hresp.legal
  | vuDec bytes => exact hs.respond hresp.legal

/-- What is still to be presented has no part in legality. -/
theorem State.Legal.withPending {s : State} (hs : s.Legal) (es : List HostEvent) : { s with pending := es }.Legal := hs

/-- Settles O50: a command keeps the state legal, a reset makes both readers legal, and an illegal word is answered with
a failure. -/
theorem everyStepKeepsTheStateLegal : Obligations.EveryStepKeepsTheStateLegal := by
  intro s t hs h
  rcases step_cases h with ⟨-, rfl⟩ | ⟨rest, -, rfl⟩ | ⟨w, operand, rest, i, -, -, hexec⟩ |
    ⟨w, operand, rest, e, -, -, rfl⟩
  · exact hs
  · obtain ⟨-, -, hresp⟩ := hs
    exact ⟨EgReader.reset_legal, AvReader.reset_legal, hresp⟩
  · exact (hs.withPending rest).exec hexec
  · exact (hs.withPending rest).respond (Response.failure_legal nofun)

/-! ### No step stops -/

theorem step_of_pending_nil {s : State} (h : s.pending = []) : step s = .next s := by
  simp only [step, State.takeEvent, h, State.idle]

theorem step_of_reset {s : State} {rest : List HostEvent} (h : s.pending = .reset :: rest) :
    step s = .next { s with pending := rest }.resetBlock := by
  simp only [step, State.takeEvent, h]

/-- Settles O51: a command word is answered in every legal state, and the other steps depend on no reader. -/
theorem noStepStopsInALegalState : Obligations.NoStepStopsInALegalState := by
  intro s hs
  match hp : s.pending with
  | [] => exact ⟨s, step_of_pending_nil hp⟩
  | .reset :: rest => exact ⟨_, step_of_reset hp⟩
  | .command w operand :: rest =>
    obtain ⟨t, -, ht, -, -⟩ := everyCommandIsAnsweredOnce s w operand rest hs hp
    exact ⟨t, ht⟩

/-! ### Payloads of at most `MAXLEN` bytes -/

theorem payload_le_of_wfWithin {i : Instr} {p : List Byte} {maxLen : Nat} (h : i.wfWithin maxLen = true)
    (hp : i.payload? = some p) : p.length ≤ maxLen := by
  rw [Instr.wfWithin, hp, Bool.and_eq_true, decide_eq_true_iff] at h
  exact h.2

/-- A command of a block whose payloads hold at most `maxLen` bytes keeps both payloads within `maxLen`. -/
theorem exec_keeps_len {i : Instr} {s t : State} {maxLen : Nat} (hi : i.wfWithin maxLen = true)
    (h : exec i s = .next t) (heg : s.eg.len ≤ maxLen) (hav : s.av.len ≤ maxLen) :
    t.eg.len ≤ maxLen ∧ t.av.len ≤ maxLen := by
  obtain ⟨resp, -, heffect⟩ := exec_effect h
  cases heffect with
  | egInit p => exact ⟨payload_le_of_wfWithin hi rfl, hav⟩
  | avInit p => exact ⟨heg, payload_le_of_wfWithin hi rfl⟩
  | egRead | avRead | vuDec => exact ⟨heg, hav⟩

theorem State.Within.step {s t : State} {maxLen : Nat} (hs : s.Within maxLen) (h : step s = .next t) :
    t.Within maxLen := by
  obtain ⟨heg, hav, hpending⟩ := hs
  rcases step_cases h with ⟨-, rfl⟩ | ⟨rest, hp, rfl⟩ | ⟨w, operand, rest, i, hp, hd, hexec⟩ |
    ⟨w, operand, rest, e, hp, -, rfl⟩
  · exact ⟨heg, hav, hpending⟩
  all_goals
    rw [hp, List.forall_mem_cons] at hpending
    obtain ⟨hevent, hrest⟩ := hpending
  · exact ⟨Nat.zero_le _, Nat.zero_le _, hrest⟩
  · obtain ⟨heg', hav'⟩ := exec_keeps_len (hevent i hd) hexec heg hav
    obtain ⟨-, -, hpend, -⟩ := commandsWriteOnlyTheirUnit i _ t hexec
    exact ⟨heg', hav', by rw [hpend]; exact hrest⟩
  · exact ⟨heg, hav, hrest⟩

/-- Settles O52: the widths are the sizes of `8 * MAXLEN` and `MAXLEN`; the step keeps the state legal and within
`MAXLEN`, and there every register is at most the number its width is the size of. -/
theorem noRegisterOutgrowsItsWidth : Obligations.NoRegisterOutgrowsItsWidth := by
  refine ⟨fun maxLen w => ⟨Nat.size_le.symm, Nat.size_le.symm⟩, fun maxLen s t hs hw h => ?_⟩
  have ht := everyStepKeepsTheStateLegal s t hs h
  have htw := hw.step h
  have ⟨⟨_, hpos⟩, ⟨_, hbyte, _⟩, _⟩ := ht
  have ⟨heg, hav, _⟩ := htw
  have hposSize : 8 * maxLen < 2 ^ Config.posWidth maxLen := Nat.lt_size_self _
  have hbyteSize : maxLen < 2 ^ Config.byteWidth maxLen := Nat.lt_size_self _
  exact ⟨ht, htw, by omega, by omega, by omega, by omega⟩

end Sys2Proof.Machine
end

section
/-! SUPPORT and PROOF. The units are independent of each other (spec/00_scope.md R3, spec/10_state.md section 4,
spec/20_memory.md section 5): what a command does to its unit, and what it answers, is a function of that unit. -/

namespace Sys2Proof.Machine

/-! ### A command depends on its own unit -/

/-- The two states have the same unit `u`; unit VU has no state (spec/10_state.md R17). -/
def State.Agree (u : BlockUnit) (s s' : State) : Prop := (u = .eg → s'.eg = s.eg) ∧ (u = .av → s'.av = s.av)

/-- The state with unit `u` as it is in `t`, and one more response. -/
def State.answered (s : State) (u : BlockUnit) (t : State) (r : Response) : State :=
  match u with
  | .eg => (s.withEg t.eg).respond r
  | .av => (s.withAv t.av).respond r
  | .vu => s.respond r

@[simp] theorem State.answered_responses (s : State) (u : BlockUnit) (t : State) (r : Response) :
    (s.answered u t r).responses = s.responses ++ [r] := by
  cases u <;> rfl

@[simp] theorem State.answered_pending (s : State) (u : BlockUnit) (t : State) (r : Response) :
    (s.answered u t r).pending = s.pending := by
  cases u <;> rfl

theorem State.answered_eg (s : State) (u : BlockUnit) (t : State) (r : Response) :
    (s.answered u t r).eg = if u = .eg then t.eg else s.eg := by
  cases u <;> rfl

theorem State.answered_av (s : State) (u : BlockUnit) (t : State) (r : Response) :
    (s.answered u t r).av = if u = .av then t.av else s.av := by
  cases u <;> rfl

theorem State.Agree.refl (u : BlockUnit) (s : State) : State.Agree u s s := ⟨fun _ => rfl, fun _ => rfl⟩

theorem State.Agree.symm {u : BlockUnit} {s t : State} (h : State.Agree u s t) : State.Agree u t s :=
  ⟨fun hu => (h.1 hu).symm, fun hu => (h.2 hu).symm⟩

theorem State.Agree.trans {u : BlockUnit} {s t v : State} (h : State.Agree u s t) (h' : State.Agree u t v) :
    State.Agree u s v :=
  ⟨fun hu => (h'.1 hu).trans (h.1 hu), fun hu => (h'.2 hu).trans (h.2 hu)⟩

/-- A unit another than the one answered is as it was. -/
theorem State.agree_answered_of_ne {u v : BlockUnit} (h : u ≠ v) (s t : State) (r : Response) :
    State.Agree v s (s.answered u t r) := by
  constructor
  · rintro rfl
    rw [State.answered_eg, if_neg h]
  · rintro rfl
    rw [State.answered_av, if_neg h]

/-- The unit answered is the one of `t`. -/
theorem State.agree_answered (u : BlockUnit) (s t : State) (r : Response) : State.Agree u t (s.answered u t r) := by
  constructor
  · rintro rfl
    rw [State.answered_eg, if_pos rfl]
  · rintro rfl
    rw [State.answered_av, if_pos rfl]

/-- A command that answers does the same to its unit, with the same response, in every state with that unit. -/
theorem exec_local {i : Instr} {s t : State} (h : exec i s = .next t) :
    ∃ r, ∀ s', State.Agree i.unit s s' → exec i s' = .next (s'.answered i.unit t r) := by
  cases hu : i.unit with
  | eg =>
    rw [exec_eg hu] at h
    rcases State.finishEg_next h with ⟨v, r, ha, rfl⟩ | ⟨k, r, ha, rfl⟩
    · refine ⟨.success (v.setWidth 64), fun s' hs' => ?_⟩
      rw [exec_eg hu, hs'.1 rfl, ha]
      rfl
    · refine ⟨.failure k, fun s' hs' => ?_⟩
      rw [exec_eg hu, hs'.1 rfl, ha]
      rfl
  | av =>
    rw [exec_av hu] at h
    rcases State.finishAv_next h with ⟨v, r, ha, rfl⟩ | ⟨k, r, ha, rfl⟩
    · refine ⟨.success v, fun s' hs' => ?_⟩
      rw [exec_av hu, hs'.2 rfl, ha]
      rfl
    · refine ⟨.failure k, fun s' hs' => ?_⟩
      rw [exec_av hu, hs'.2 rfl, ha]
      rfl
  | vu =>
    cases i with
    | vuDec bytes => exact ⟨_, fun s' _ => exec_vu bytes s'⟩
    | egInit _ | egRdbit | egRdbits _ | egRdue | egRdse | egSkue | egSkse | avInit _ | avRdbit | avRdbits _ => cases hu

/-- The state a command leaves is the one it was given, with its own unit answered. -/
theorem eq_answered {i : Instr} {s t : State} {r : Response} (h : exec i s = .next t)
    (hlocal : ∀ s', State.Agree i.unit s s' → exec i s' = .next (s'.answered i.unit t r)) :
    t = s.answered i.unit t r := by
  have hs := hlocal s (.refl _ s)
  rw [h] at hs
  exact Host.Outcome.next.inj hs

/-- Settles O45: the two states agree in the unit of the command. -/
theorem commandsReadOnlyTheirUnit : Obligations.CommandsReadOnlyTheirUnit := by
  intro i s s' t h heg hav
  obtain ⟨r, hlocal⟩ := exec_local h
  obtain ⟨ht'eg, ht'av⟩ := State.agree_answered i.unit s' t r
  refine ⟨_, r, hlocal s' ⟨heg, hav⟩, ?_, by simp, ht'eg, ht'av⟩
  rw [eq_answered h hlocal]
  simp

/-- Settles O46: each of the two finds its own unit as it was, whether the other came before it or not. -/
theorem commandsToDifferentUnitsCommute : Obligations.CommandsToDifferentUnitsCommute := by
  intro i j s t u hne hi hj
  obtain ⟨q, hqlocal⟩ := exec_local hi
  obtain ⟨r, hrlocal⟩ := exec_local hj
  have ht := eq_answered hi hqlocal
  have hu := eq_answered hj hrlocal
  obtain ⟨hieg, hiav, hipend, -⟩ := commandsWriteOnlyTheirUnit i s t hi
  obtain ⟨hjeg, hjav, hjpend, -⟩ := commandsWriteOnlyTheirUnit j t u hj
  have hjs : State.Agree j.unit t s := by
    rw [ht]
    exact (State.agree_answered_of_ne hne s t q).symm
  refine ⟨_, _, q, r, hrlocal s hjs, hqlocal _ (State.agree_answered_of_ne hne.symm s u r), ?_, by simp, ?_, ?_, ?_⟩
  · rw [hu, State.answered_responses, ht]
    simp
  · rw [State.answered_eg, State.answered_eg]
    by_cases hiu : i.unit = .eg
    · rw [if_pos hiu, hjeg fun hju => hne (hiu.trans hju.symm)]
    · by_cases hju : j.unit = .eg
      · rw [if_neg hiu, if_pos hju]
      · rw [if_neg hiu, if_neg hju, hjeg hju, hieg hiu]
  · rw [State.answered_av, State.answered_av]
    by_cases hiu : i.unit = .av
    · rw [if_pos hiu, hjav fun hju => hne (hiu.trans hju.symm)]
    · by_cases hju : j.unit = .av
      · rw [if_neg hiu, if_pos hju]
      · rw [if_neg hiu, if_neg hju, hjav hju, hiav hiu]
  · rw [State.answered_pending, State.answered_pending, hjpend, hipend]

/-! ### Issuing a list of commands -/

/-- The unit whose state a command word can change; an illegal word changes none, as the commands of unit VU (R125,
spec/10_state.md R17). -/
def commandUnit (c : CmdWord × List Byte) : BlockUnit :=
  match decode c.1 c.2 with
  | .ok i => i.unit
  | .error _ => .vu

theorem addressesEg_eq (c : CmdWord × List Byte) : addressesEg c = (commandUnit c == .eg) := by
  rw [addressesEg, commandUnit]
  cases decode c.1 c.2 <;> rfl

theorem addressesAv_eq (c : CmdWord × List Byte) : addressesAv c = (commandUnit c == .av) := by
  rw [addressesAv, commandUnit]
  cases decode c.1 c.2 <;> rfl

theorem commandUnit_ok {c : CmdWord × List Byte} {i : Instr} (h : decode c.1 c.2 = .ok i) : commandUnit c = i.unit := by
  simp only [commandUnit, h]

theorem commandUnit_error {c : CmdWord × List Byte} {e : DecodeReject} (h : decode c.1 c.2 = .error e) :
    commandUnit c = .vu := by
  simp only [commandUnit, h]

theorem State.answered_issuing (s : State) (u : BlockUnit) (t : State) (r : Response)
    (cs : List (CmdWord × List Byte)) : (s.issuing cs).answered u t r = (s.answered u t r).issuing cs := by
  cases u <;> rfl

/-- The first command issued from a legal state is answered, and the same in every state with its unit. -/
theorem step_issuing {s : State} (hs : s.Legal) (c : CmdWord × List Byte) :
    ∃ t r, (s.answered (commandUnit c) t r).Legal ∧ ∀ s' cs, State.Agree (commandUnit c) s s' →
      step (s'.issuing (c :: cs)) = .next ((s'.answered (commandUnit c) t r).issuing cs) := by
  have ⟨heg, hav, _⟩ := hs
  cases hd : decode c.1 c.2 with
  | ok i =>
    rw [commandUnit_ok hd]
    obtain ⟨t, -, ht, -, -⟩ := answeredBy_exec i heg hav
    obtain ⟨r, hlocal⟩ := exec_local ht
    refine ⟨t, r, hs.exec (hlocal s (.refl _ s)), fun s' cs hs' => ?_⟩
    rw [step_of_decode_ok (s := s'.issuing (c :: cs)) rfl hd, ← State.answered_issuing]
    exact hlocal (s'.issuing cs) hs'
  | error e =>
    rw [commandUnit_error hd]
    refine ⟨s, .failure .illegalCommand, hs.respond (Response.failure_legal nofun), fun s' cs _ => ?_⟩
    rw [step_of_decode_error (s := s'.issuing (c :: cs)) rfl hd]
    rfl

theorem run_succ {s t : State} (h : step s = .next t) (k : Nat) :
    Host.Core.run Sys2Proof.core (k + 1) s = Host.Core.run Sys2Proof.core k t := by
  have hstep : Sys2Proof.core.step s = .next t := h
  simp only [Host.Core.run, hstep]

/-- Issuing a list of commands, and issuing only those of unit `u` from a state with the same unit: both runs complete,
they end in states with the same unit, and the second gives the responses the first gave to its commands. -/
theorem run_issuing_filter (u : BlockUnit) (cs : List (CmdWord × List Byte)) {s s' : State} (hs : s.Legal)
    (hs' : State.Agree u s s') :
    ∃ (t t' : State) (rs : List Response),
      Host.Core.run Sys2Proof.core cs.length (s.issuing cs) = .next t ∧
      t.responses = s.responses ++ rs ∧ rs.length = cs.length ∧
      Host.Core.run Sys2Proof.core (cs.filter (commandUnit · == u)).length
        (s'.issuing (cs.filter (commandUnit · == u))) = .next t' ∧
      State.Agree u t t' ∧
      t'.responses = s'.responses ++ ((cs.zip rs).filter (commandUnit ·.1 == u)).map Prod.snd := by
  induction cs generalizing s s' with
  | nil => exact ⟨_, _, [], rfl, by simp, rfl, rfl, hs', by simp⟩
  | cons c cs ih =>
    obtain ⟨t₁, r, hlegal, hstep⟩ := step_issuing hs c
    have hrun := run_succ (hstep s cs (.refl _ s)) cs.length
    by_cases hc : commandUnit c = u
    · subst hc
      obtain ⟨t, t', rs, ht, hresp, hlen, ht', hagree, hresp'⟩ :=
        ih hlegal ((State.agree_answered _ s t₁ r).symm.trans (State.agree_answered _ s' t₁ r))
      refine ⟨t, t', r :: rs, hrun.trans ht, by simp [hresp], by simp [hlen], ?_, hagree, ?_⟩
      · rw [List.filter_cons_of_pos (by simp)]
        exact (run_succ (hstep s' _ hs') _).trans ht'
      · simp [hresp']
    · obtain ⟨t, t', rs, ht, hresp, hlen, ht', hagree, hresp'⟩ :=
        ih hlegal ((State.agree_answered_of_ne hc s t₁ r).symm.trans hs')
      refine ⟨t, t', r :: rs, hrun.trans ht, by simp [hresp], by simp [hlen], ?_, hagree, ?_⟩
      · rwa [List.filter_cons_of_neg (by simpa using hc)]
      · simp [hresp', hc]

/-- Settles O47: the commands of each unit issued alone, from the same state as all of them. -/
theorem interleavingIsInvisibleToAUnit : Obligations.InterleavingIsInvisibleToAUnit := by
  intro s cs hs
  obtain ⟨t, u, rs, ht, hresp, hlen, hu, hueg, huresp⟩ := run_issuing_filter .eg cs hs (.refl _ s)
  obtain ⟨t', v, rs', ht', hresp', -, hv, hvav, hvresp⟩ := run_issuing_filter .av cs hs (.refl _ s)
  obtain rfl : t = t' := Host.Outcome.next.inj (ht.symm.trans ht')
  obtain rfl : rs = rs' := List.append_cancel_left (hresp.symm.trans hresp')
  simp only [← addressesEg_eq] at hu huresp
  simp only [← addressesAv_eq] at hv hvresp
  exact ⟨t, u, v, rs, ht, hresp, hlen, hu, hueg.1 rfl, huresp, hv, hvav.2 rfl, hvresp⟩

end Sys2Proof.Machine
end

section
/-! SUPPORT and PROOF. The Exp-Golomb commands by the closed form of the unsigned code (spec/40_expgolomb_reader.md
sections 3 to 5). -/

namespace Sys2Proof.Machine

/-! ### The four cases of R74 -/

theorem EgReader.zeros_le (r : EgReader) : r.zeros ≤ min 32 (8 * r.len - r.pos) := zeroRun_le _ _ _ _

theorem EgReader.ueKind_malformed {r : EgReader} (h : r.zeros = 32) : r.ueKind = .malformedCode := by
  rw [EgReader.ueKind, if_pos h]

theorem EgReader.ueRest_malformed {r : EgReader} (h : r.zeros = 32) : r.ueRest = r.pos + 32 := by
  rw [EgReader.ueRest, if_pos h]

theorem EgReader.ueKind_exhausted {r : EgReader} (h : r.zeros < 32) (hend : 8 * r.len < r.pos + 2 * r.zeros + 1) :
    r.ueKind = .exhausted := by
  rw [EgReader.ueKind, if_neg (by omega), if_neg (by omega)]

theorem EgReader.ueRest_exhausted {r : EgReader} (h : r.zeros < 32) (hend : 8 * r.len < r.pos + 2 * r.zeros + 1) :
    r.ueRest = 8 * r.len := by
  rw [EgReader.ueRest, if_neg (by omega), if_neg (by omega)]

theorem EgReader.ueKind_none {r : EgReader} (h : r.zeros < 32) (hend : r.pos + 2 * r.zeros + 1 ≤ 8 * r.len) :
    r.ueKind = .none := by
  rw [EgReader.ueKind, if_neg (by omega), if_pos hend]

theorem EgReader.ueRest_none {r : EgReader} (h : r.zeros < 32) (hend : r.pos + 2 * r.zeros + 1 ≤ 8 * r.len) :
    r.ueRest = r.pos + 2 * r.zeros + 1 := by
  rw [EgReader.ueRest, if_neg (by omega), if_pos hend]

/-- A code that does not fail has fewer than 32 zeros before its one. -/
theorem EgReader.zeros_lt_of_ueKind {r : EgReader} (h : r.ueKind = .none) : r.zeros < 32 := by
  have hle := r.zeros_le
  have hne : r.zeros ≠ 32 := fun h32 => by
    rw [EgReader.ueKind_malformed h32] at h
    cases h
  omega

/-- The largest value of a code is `2^32 - 2`, at 31 zeros. -/
theorem EgReader.ueValue_le {r : EgReader} (h : r.zeros < 32) : r.ueValue ≤ 2 ^ 32 - 2 :=
  ueSum_lt h (bigEndianValue_lt _ _ _ _)

/-! ### The commands over a legal reader -/

/-- A command that takes the steps of the unsigned code and answers `g` of its value, from a legal reader. -/
theorem finishEg_map_egDecodeUe {s : State} (hs : s.eg.Legal) (g : BitVec 32 → BitVec 32) :
    s.finishEg ((egDecodeUe s.eg).map g) = .next ((s.withEg (s.eg.atPos s.eg.ueRest)).respond
      (if s.eg.ueKind = .none then .success ((g (BitVec.ofNat 32 s.eg.ueValue)).setWidth 64)
        else .failure s.eg.ueKind)) := by
  rw [egDecodeUe_legal _ hs]
  split
  · rw [Attempt.map_done, State.finishEg_done]
  · rw [Attempt.map_fail, State.finishEg_fail]

theorem Attempt.map_id {ρ α : Type} (a : Attempt ρ α) : a.map id = a := by
  cases a <;> rfl

theorem setWidth_ofNat_32_64 {n : Nat} (hn : n < 2 ^ 32) : (BitVec.ofNat 32 n).setWidth 64 = BitVec.ofNat 64 n := by
  apply BitVec.eq_of_toNat_eq
  rw [BitVec.toNat_setWidth, BitVec.toNat_ofNat, BitVec.toNat_ofNat, Nat.mod_eq_of_lt hn]

/-- `EG.RDUE` from a legal reader (R74). -/
theorem exec_egRdue_legal {s : State} (hs : s.eg.Legal) :
    exec .egRdue s = .next ((s.withEg (s.eg.atPos s.eg.ueRest)).respond
      (if s.eg.ueKind = .none then .success (BitVec.ofNat 64 s.eg.ueValue) else .failure s.eg.ueKind)) := by
  rw [exec_egRdue, ← Attempt.map_id (egDecodeUe s.eg), finishEg_map_egDecodeUe hs]
  by_cases h : s.eg.ueKind = .none
  · have := EgReader.ueValue_le (EgReader.zeros_lt_of_ueKind h)
    rw [if_pos h, if_pos h, id_eq, setWidth_ofNat_32_64 (by omega)]
  · rw [if_neg h, if_neg h]

/-- Settles O19: the four cases are those of the kind and the resting place of the closed form. -/
theorem egRdueHasFourOutcomes : Obligations.EgRdueHasFourOutcomes := by
  refine ⟨by decide, fun s hs => ?_⟩
  have hexec := exec_egRdue_legal hs
  have hpos : s.eg.pos ≤ 8 * s.eg.len := hs.2
  have hle : s.eg.zeros ≤ min 32 (8 * s.eg.len - s.eg.pos) := s.eg.zeros_le
  refine ⟨hle.trans (by omega), by change s.eg.pos + s.eg.zeros ≤ _; omega, fun hz => ?_, fun hz hend => ?_,
    fun hz hlt => ?_, fun hz _ hend => ?_, fun hz hend => ⟨EgReader.ueValue_le (r := s.eg) hz, ?_⟩⟩
  · change s.eg.zeros = 32 at hz
    rw [hexec, EgReader.ueKind_malformed hz, EgReader.ueRest_malformed hz]
    rfl
  · change s.eg.zeros < 32 at hz
    change s.eg.pos + s.eg.zeros = 8 * s.eg.len at hend
    rw [hexec, EgReader.ueKind_exhausted hz (by omega), EgReader.ueRest_exhausted hz (by omega)]
    rfl
  · change s.eg.zeros < 32 at hz
    change s.eg.pos + s.eg.zeros < 8 * s.eg.len at hlt
    have hone : payloadBit s.eg.buf s.eg.len (s.eg.pos + s.eg.zeros) = true :=
      zeroRun_stop _ _ _ _ (show s.eg.zeros < min 32 (8 * s.eg.len - s.eg.pos) by omega)
    exact (hs.1.streamBit hlt).trans (congrArg some hone)
  · change s.eg.zeros < 32 at hz
    rw [hexec, EgReader.ueKind_exhausted hz hend, EgReader.ueRest_exhausted hz hend]
    rfl
  · change s.eg.zeros < 32 at hz
    rw [hexec, EgReader.ueKind_none hz hend, EgReader.ueRest_none hz hend]
    rfl

/-- The value `EG.RDSE` answers for the unsigned value `n`, in the 64 bits of the response (R76). -/
theorem setWidth_ofInt_seOfUe {n : Nat} (hn : n < 2 ^ 32) :
    (BitVec.ofInt 32 (seOfUe (BitVec.ofNat 32 n).toNat)).setWidth 64 =
      BitVec.ofNat 64 (if n = 0 then 0 else if n % 2 = 1 then (n + 1) / 2 else 2 ^ 32 - n / 2) := by
  have hmap := toNat_ofInt_seOfUe (BitVec.ofNat 32 n)
  have hnat : (BitVec.ofNat 32 n).toNat = n := by rw [BitVec.toNat_ofNat, Nat.mod_eq_of_lt hn]
  rw [← BitVec.ofNat_toNat, hmap, hnat]

/-- `EG.RDSE` from a legal reader: the unsigned code with its value mapped (R76). -/
theorem exec_egRdse_legal {s : State} (hs : s.eg.Legal) (h : s.eg.ueKind = .none) :
    exec .egRdse s = .next ((s.withEg (s.eg.atPos s.eg.ueRest)).respond (.success (BitVec.ofNat 64
      (if s.eg.ueValue = 0 then 0 else if s.eg.ueValue % 2 = 1 then (s.eg.ueValue + 1) / 2
        else 2 ^ 32 - s.eg.ueValue / 2)))) := by
  have := EgReader.ueValue_le (EgReader.zeros_lt_of_ueKind h)
  rw [exec_egRdse, finishEg_map_egDecodeUe hs, if_pos h, setWidth_ofInt_seOfUe (by omega)]

/-- Settles O20: a failure is that of the unsigned code; a success maps its value by the three cases of R76. -/
theorem egRdseMapsTheUnsignedCode : Obligations.EgRdseMapsTheUnsignedCode := by
  refine ⟨by decide, fun s hs => ⟨fun h => ?_, fun h h0 => ?_, fun h hodd => ?_, fun h h0 heven => ?_⟩⟩
  · rw [exec_egRdse, finishEg_map_egDecodeUe hs, if_neg h]
    rfl
  · rw [exec_egRdse_legal hs h, if_pos h0]
    rfl
  · have h0 : s.eg.ueValue ≠ 0 := fun h0 => by
      rw [h0] at hodd
      cases hodd
    rw [exec_egRdse_legal hs h, if_neg h0, if_pos hodd]
    rfl
  · rw [exec_egRdse_legal hs h, if_neg h0, if_neg (by omega)]
    rfl

/-- `EG.SKUE` from a legal reader (R77). -/
theorem exec_egSkue_legal {s : State} (hs : s.eg.Legal) :
    exec .egSkue s = .next ((s.withEg (s.eg.atPos s.eg.ueRest)).respond
      ⟨s.eg.ueKind == .none, s.eg.ueKind, 0, 0⟩) := by
  rw [exec_egSkue, finishEg_map_egDecodeUe hs]
  cases s.eg.ueKind <;> rfl

/-- `EG.SKSE` discards the mapped value, and `EG.SKUE` the value itself (R78). -/
theorem exec_egSkse_eq_egSkue (s : State) : exec .egSkse s = exec .egSkue s := by
  rw [exec_eg rfl, exec_eg rfl, egSteps, egSteps, egDecodeSe_eq]
  cases egDecodeUe s.eg <;> rfl

/-- Settles O21: the kind decides between the success and the failure, and the value is discarded. -/
theorem egSkueSkipsTheUnsignedCode : Obligations.EgSkueSkipsTheUnsignedCode :=
  ⟨by decide, fun _ hs => exec_egSkue_legal hs⟩

/-- Settles O22: the two skips take the same steps and discard what they give. -/
theorem egSkseSkipsTheSignedCode : Obligations.EgSkseSkipsTheSignedCode :=
  ⟨by decide, fun s => ⟨fun hs => (exec_egSkse_eq_egSkue s).trans (exec_egSkue_legal hs), exec_egSkse_eq_egSkue s⟩⟩

/-! ### The value and its length -/

/-- Settles O23: the three ways the decoder ends in any state. -/
theorem egRdueValueMatchesItsLength : Obligations.EgRdueValueMatchesItsLength := by
  intro s t h
  rw [exec_egRdue] at h
  rcases egDecodeUe_cases s.eg with ⟨lz, n, hlz, hn, hd⟩ | hd | ⟨m, -, hend, hd⟩ | hd
  all_goals
    rw [hd] at h
    cases h
  · have hle := ueSum_lt hlz hn
    have hlt : 2 ^ lz - 1 + n < 2 ^ 32 := by omega
    have hvalue : (Response.success ((BitVec.ofNat 32 (2 ^ lz - 1 + n)).setWidth 64)).value.toNat = 2 ^ lz - 1 + n := by
      rw [setWidth_ofNat_32_64 hlt]
      exact Nat.mod_eq_of_lt (by omega)
    refine .inl ⟨lz, _, by omega, rfl, rfl, rfl, by omega, ?_⟩
    rw [hvalue, pow_succ]
    omega
  · exact .inr (.inl ⟨_, rfl, rfl, rfl⟩)
  · exact .inr (.inr ⟨_, rfl, rfl, hend⟩)

/-! ### Codes written out -/

theorem EgReader.Spells.head {r : EgReader} {b : Bool} {bits : List Bool} (h : r.Spells (b :: bits)) :
    streamBit r.buf r.len r.pos = some b := h 0 (by simp)

theorem EgReader.Spells.tail {r : EgReader} {b : Bool} {bits : List Bool} (h : r.Spells (b :: bits)) :
    (r.atPos (r.pos + 1)).Spells bits := fun k hk => by
  have hk' := h (k + 1) (by simpa using hk)
  rwa [show r.pos + (k + 1) = r.pos + 1 + k by omega, List.getElem?_cons_succ] at hk'

/-- The loop over the leading zeros, where `n` zeros and a one stand. -/
theorem egPrefix_spells {n more : Nat} (lz : Nat) {r : EgReader} {rest : List Bool} (hn : n < more)
    (h : r.Spells (List.replicate n false ++ true :: rest)) :
    egPrefix more lz r = .done (lz + n) (r.atPos (r.pos + n + 1)) ∧ (r.atPos (r.pos + n + 1)).Spells rest := by
  induction n generalizing more lz r with
  | zero =>
    obtain ⟨m, rfl⟩ : ∃ m, more = m + 1 := ⟨more - 1, by omega⟩
    refine ⟨?_, h.tail⟩
    rw [egPrefix, egBit_of_streamBit h.head]
    rfl
  | succ n ih =>
    obtain ⟨m, rfl⟩ : ∃ m, more = m + 1 := ⟨more - 1, by omega⟩
    obtain ⟨hprefix, hrest⟩ := ih (more := m) (lz + 1) (by omega) h.tail
    have hpos : r.pos + 1 + n + 1 = r.pos + (n + 1) + 1 := by omega
    simp only [EgReader.atPos_pos, EgReader.atPos_atPos, hpos] at hprefix hrest
    refine ⟨?_, hrest⟩
    rw [egPrefix, egBit_of_streamBit h.head, Attempt.bind, if_neg (by simp), hprefix, Nat.add_assoc lz 1 n,
      Nat.add_comm 1 n]

theorem length_bigEndianBits (v n : Nat) : (bigEndianBits v n).length = n := by
  induction n with
  | zero => rfl
  | succ n ih => rw [bigEndianBits, List.length_cons, ih]

/-- Where the `n` low bits of `v` stand, a field of `n` bits can be read, and it is `v` modulo `2^n`. -/
theorem EgReader.Spells.field {r : EgReader} {v n : Nat} (h : r.Spells (bigEndianBits v n)) :
    r.Readable n ∧ bigEndianValue r.buf r.len r.pos n = v % 2 ^ n := by
  induction n generalizing r with
  | zero => exact ⟨fun k hk => by omega, by rw [bigEndianValue_zero, pow_zero, Nat.mod_one]⟩
  | succ n ih =>
    rw [bigEndianBits] at h
    obtain ⟨hread, hvalue⟩ := ih h.tail
    constructor
    · intro k hk
      cases k with
      | zero => exact streamBit_eq_payloadBit h.head
      | succ k => simpa [Nat.add_assoc, Nat.add_comm 1] using hread k (by omega)
    · have hv : bigEndianValue r.buf r.len (r.pos + 1) n = v % 2 ^ n := hvalue
      rw [bigEndianValue_succ, payloadBit_of_streamBit h.head, hv, Nat.mod_pow_succ, Nat.toNat_testBit,
        Nat.mul_comm, Nat.add_comm]

theorem length_ueCode (v : Nat) : (ueCode v).length = 2 * Nat.log2 (v + 1) + 1 := by
  simp [ueCode, length_bigEndianBits]
  omega

/-- The unsigned decoder over the code of `v` (spec/95_test_vectors.md part 4, law 10). -/
theorem egDecodeUe_spells {r : EgReader} {v : Nat} (hv : v ≤ 2 ^ 32 - 2) (h : r.Spells (ueCode v)) :
    egDecodeUe r = .done (BitVec.ofNat 32 v) (r.atPos (r.pos + (ueCode v).length)) := by
  have hlz : Nat.log2 (v + 1) < 32 := (Nat.log2_lt (by omega)).2 (by omega)
  have hlow : 2 ^ Nat.log2 (v + 1) ≤ v + 1 := Nat.log2_self_le (by omega)
  have hhigh : v + 1 < 2 ^ (Nat.log2 (v + 1) + 1) := Nat.lt_log2_self
  rw [length_ueCode]
  rw [ueCode] at h
  generalize Nat.log2 (v + 1) = lz at *
  rw [pow_succ] at hhigh
  obtain ⟨hprefix, hrest⟩ := egPrefix_spells 0 hlz h
  obtain ⟨hread, hvalue⟩ := hrest.field
  rw [Nat.zero_add] at hprefix
  rw [egDecodeUe_done hprefix hlz hread, hvalue, Nat.mod_eq_of_lt (by omega)]
  have hsum : 2 ^ lz - 1 + (v + 1 - 2 ^ lz) = v := by omega
  have hend : r.pos + lz + 1 + lz = r.pos + (2 * lz + 1) := by omega
  rw [hsum, EgReader.atPos_pos, EgReader.atPos_atPos, hend]

/-- Settles O24: the decoder counts the zeros of the code and reads its suffix. -/
theorem egRdueDecodesTheCodeOfEveryValue : Obligations.EgRdueDecodesTheCodeOfEveryValue := by
  intro s v hv h
  rw [exec_egRdue, egDecodeUe_spells hv h, State.finishEg_done, setWidth_ofNat_32_64 (by omega)]
  rfl

/-- The unsigned number the code of a signed one carries (spec/40_expgolomb_reader.md section 4). -/
def ueOfSe (se : Int) : Nat := if 0 < se then 2 * se.toNat - 1 else 2 * (-se).toNat

theorem seOfUe_ueOfSe (se : Int) : seOfUe (ueOfSe se) = se := by
  rw [seOfUe, ueOfSe]
  split_ifs <;> omega

/-- Settles O25: the code of `se` is that of `ueOfSe se`, and the map of R76 gives `se` back. -/
theorem egRdseDecodesTheCodeOfEverySignedValue : Obligations.EgRdseDecodesTheCodeOfEverySignedValue := by
  intro s se hlow hhigh ue h
  have hue : ue = ueOfSe se := rfl
  have hle : ue ≤ 2 ^ 32 - 2 := by
    rw [hue, ueOfSe]
    split_ifs <;> omega
  refine ⟨BitVec.ofInt 32 se, ?_, ?_⟩
  · exact BitVec.toInt_ofInt_eq_self (by omega) (by omega) (by omega)
  · have hnat : (BitVec.ofNat 32 ue).toNat = ue := by
      rw [BitVec.toNat_ofNat]
      omega
    rw [exec_egRdse, egDecodeUe_spells hle h, Attempt.map_done, State.finishEg_done, hnat, hue, seOfUe_ueOfSe]
    rfl

/-! ### Fixed-width reads -/

/-- One bit read onto 0 is the bit (R71, R72). -/
theorem egReadBits_one (r : EgReader) :
    egReadBits 1 0 r = (egBit r).map fun b => (BitVec.ofBool b).setWidth 32 := by
  rw [egReadBits, Attempt.map]
  congr 1
  funext b r'
  cases b <;> rfl

theorem avReadBits_one (r : AvReader) :
    avReadBits 1 0 r = (avBit r).map fun b => (BitVec.ofBool b).setWidth 64 := by
  rw [avReadBits, Attempt.map]
  congr 1
  funext b r'
  cases b <;> rfl

/-- Settles O26: a width of 1 is within both bounds, and the loop of one bit is the bit. -/
theorem rdbitIsRdbitsOfOne : Obligations.RdbitIsRdbitsOfOne := by
  intro s
  constructor
  · rw [exec_eg rfl, exec_eg rfl, egSteps, egSteps, egReadField_narrow (by omega), egReadBits_one]
  · rw [exec_av rfl, exec_av rfl, avSteps, avSteps, avReadField_narrow (by omega), avReadBits_one]

/-- Settles O27: all three reads find their bits, and a big-endian field is the sum of its two parts. -/
theorem egRdbitsSplits : Obligations.EgRdbitsSplits := by
  intro s a b hs hab hrem
  have hpos : s.eg.pos ≤ 8 * s.eg.len := hs.2
  have hmid : (s.eg.atPos (s.eg.pos + a)).Legal := EgReader.legal_atPos hs.1 (by omega)
  have hta := exec_egRdbits_readable (s := s) (n := a) (by omega) (hs.readable (by omega))
  have hwab := exec_egRdbits_readable (s := s) hab (hs.readable (by omega))
  rw [bigEndianValue_add] at hwab
  exact ⟨_, _, _, _, _, hta, rfl, exec_egRdbits_readable (by omega) (hmid.readable (by simp; omega)), rfl, hwab, rfl,
    bigEndianValue_lt _ _ _ _, bigEndianValue_lt _ _ _ _, by simp [Nat.add_assoc], rfl⟩

end Sys2Proof.Machine
end

section
/-! SUPPORT and PROOF. The AV1 reader over its global index, and the two readers side by side (spec/41_av1_reader.md
sections 1 and 3). -/

namespace Sys2Proof.Machine

/-! ### The global index -/

/-- Settles O30: the pair is the quotient and the remainder of its index; the bit step fails at the end and moves one on
before it. -/
theorem avStepIsTheGlobalIndexStep : Obligations.AvStepIsTheGlobalIndexStep := by
  intro r hr
  have hbyte := r.globalPos_byte
  refine ⟨hr.globalPos_le, hbyte.symm, r.globalPos_bit.symm, fun hend => avNext_end (by omega), fun hlt => ?_⟩
  exact ⟨_, _, avNext_readable (hr.readable hlt), hr.1.streamBit hlt, r.atPos_globalPos _, rfl, rfl⟩

/-- Settles O31: all three reads find their bits, and a big-endian field is the sum of its two parts. -/
theorem avRdbitsSplits : Obligations.AvRdbitsSplits := by
  intro s a b hs hab hrem
  have hpos := hs.globalPos_le
  have hmid : (s.av.atPos (s.av.globalPos + a)).Legal := AvReader.legal_atPos hs.1 (by omega)
  have hta := exec_avRdbits_readable (s := s) (n := a) (by omega) (hs.readable (by omega))
  have hwab := exec_avRdbits_readable (s := s) hab (hs.readable (by omega))
  rw [bigEndianValue_add] at hwab
  refine ⟨_, _, _, _, _, hta, rfl, exec_avRdbits_readable (by omega) (hmid.readable (by simp; omega)), ?_, hwab, rfl,
    bigEndianValue_lt _ _ _ _, bigEndianValue_lt s.av.buf s.av.len (s.av.globalPos + a) b, ?_, rfl⟩
  · simp [Response.success]
  · simp [Nat.add_assoc]

/-! ### The two readers -/

/-- `EG.RDBITS n` with fewer than `n` bits left: the reader rests at the end (R72). -/
theorem exec_egRdbits_short {s : State} {n : Nat} (hn : n ≤ 32) (hs : s.eg.Legal) (hrem : 8 * s.eg.len - s.eg.pos < n) :
    exec (.egRdbits n) s = .next ((s.withEg (s.eg.atPos (8 * s.eg.len))).respond (.failure .exhausted)) := by
  rw [exec_eg rfl, egSteps, egReadField_narrow hn, egReadBits_short n 0 s.eg hs hrem, State.finishEg_fail]

/-- The commands answer the same in `s`, and leave the two readers at the same position. -/
def ReadersAgree (i j : Instr) (s : State) : Prop :=
  ∃ t u r, exec i s = .next t ∧ exec j s = .next u ∧ t.responses = s.responses ++ [r] ∧
    u.responses = s.responses ++ [r] ∧ u.av.globalPos = t.eg.pos

/-- Both field loops find all their bits, or both run into the end. -/
theorem readersAgree_rdbits {s : State} (heg : s.eg.Legal) (hav : s.av.Legal) (hbuf : s.av.buf = s.eg.buf)
    (hlen : s.av.len = s.eg.len) (hpos : s.av.globalPos = s.eg.pos) {n : Nat} (hn : n ≤ 32) :
    ReadersAgree (.egRdbits n) (.avRdbits n) s := by
  have hend : s.eg.pos ≤ 8 * s.eg.len := heg.2
  by_cases hrem : n ≤ 8 * s.eg.len - s.eg.pos
  · have ht := exec_egRdbits_readable hn (heg.readable (n := n) (by omega))
    have hu := exec_avRdbits_readable (n := n) (by omega) (hav.readable (by omega))
    rw [hbuf, hlen, hpos] at hu
    exact ⟨_, _, _, ht, hu, rfl, rfl, by simp⟩
  · have ht := exec_egRdbits_short hn heg (by omega)
    have hu := exec_avRdbits_short (n := n) (by omega) hav (by omega)
    rw [← AvReader.atPos_end, hlen] at hu
    exact ⟨_, _, _, ht, hu, rfl, rfl, by simp⟩

/-- Settles O32: `RDBIT` is `RDBITS 1` for both readers, and the two `RDBITS` agree. -/
theorem theTwoReadersAgree : Obligations.TheTwoReadersAgree := by
  intro s heg hav hbuf hlen hpos
  obtain ⟨hegbit, havbit⟩ := rdbitIsRdbitsOfOne s
  refine ⟨?_, fun n hn => readersAgree_rdbits heg hav hbuf hlen hpos hn⟩
  rw [hegbit, havbit]
  exact readersAgree_rdbits heg hav hbuf hlen hpos (by omega)

end Sys2Proof.Machine
end

section
/-! SUPPORT and PROOF. The variable-length decoder (spec/42_varuint.md): what it answers by the first byte with a clear
high bit, the bytes it depends on, and the minimal encodings. -/

namespace Sys2Proof.Machine

/-! ### The answer by the first byte that ends -/

/-- The byte at index `t` is the first with a clear high bit (R101). -/
def EndsAt (s : List Byte) (t : Nat) : Prop :=
  (s.getD t 0).getLsbD 7 = false ∧ ∀ k, k < t → (s.getD k 0).getLsbD 7 = true

/-- No byte of the first ten ends the number (R101). -/
theorem vuResponse_unterminated {s : List Byte} (h : ∀ k, k < min s.length 10 → (s.getD k 0).getLsbD 7 = true) :
    vuResponse s = .failure .unterminatedVaruint := by
  rw [vuResponse, Config.vuScanMax, vuScan_none 10 0 0 s h]

/-- The byte at index `t` ends the number (R101). -/
theorem vuResponse_of_endsAt {s : List Byte} {t : Nat} (ht : t < min s.length 10) (h : EndsAt s t) :
    vuResponse s = .successVar (BitVec.ofNat 64 (vuSum s (t + 1))) (t + 1) := by
  have hscan := vuScan_at s t 10 0 0 (by simp) ht h.1 h.2
  rw [vuResponse, Config.vuScanMax, show (0 : BitVec 64) = BitVec.ofNat 64 0 from rfl, hscan]
  simp

/-- Settles O33: the bytes at 128 and above are those with the high bit set. -/
theorem vuDecSumsTheGroups : Obligations.VuDecSumsTheGroups := by
  refine ⟨fun bytes => decode_encodeWord (i := .vuDec bytes) rfl bytes,
    fun st s => ⟨fun h => ?_, fun t ht hend hgo => ?_⟩⟩
  · rw [exec_vu, vuResponse_unterminated fun k hk => (byte_high_iff _).2 (h k hk)]
    rfl
  · have hends : EndsAt s t :=
      ⟨Bool.eq_false_iff.2 fun hb => by have := (byte_high_iff _).1 hb; omega,
        fun k hk => (byte_high_iff _).2 (hgo k hk)⟩
    rw [exec_vu, vuResponse_of_endsAt ht hends]
    rfl

/-! ### The bytes the answer depends on -/

theorem vuSum_congr {s s' : List Byte} {n : Nat} (h : ∀ k, k < n → s'.getD k 0 = s.getD k 0) :
    vuSum s' n = vuSum s n :=
  Finset.sum_congr rfl fun k hk => by rw [h k (Finset.mem_range.1 hk)]

theorem EndsAt.congr {s s' : List Byte} {t : Nat} (hs : EndsAt s t)
    (h : ∀ k, k < t + 1 → s'.getD k 0 = s.getD k 0) : EndsAt s' t := by
  obtain ⟨hend, hgo⟩ := hs
  exact ⟨by rw [h t (by omega), hend], fun k hk => by rw [h k (by omega), hgo k hk]⟩

/-- An operand that begins with the bytes up to the one that ends the number gives the same answer. -/
theorem vuResponse_congr {s s' : List Byte} {t : Nat} (hs : EndsAt s t) (ht : t < min s.length 10)
    (ht' : t < s'.length) (h : ∀ k, k < t + 1 → s'.getD k 0 = s.getD k 0) : vuResponse s' = vuResponse s := by
  rw [vuResponse_of_endsAt (by omega) (hs.congr h), vuResponse_of_endsAt ht hs, vuSum_congr h]

theorem getD_take_append {s more : List Byte} {k n : Nat} (hk : k < n) (hn : n ≤ s.length) :
    (s.take n ++ more).getD k 0 = s.getD k 0 := by
  rw [List.getD_append _ _ _ _ (by simp; omega), List.getD_eq_getElem?_getD, List.getElem?_take_of_lt hk,
    ← List.getD_eq_getElem?_getD]

theorem toNat_consumed {t : Nat} (ht : t < 10) : (BitVec.ofNat 4 (t + 1)).toNat = t + 1 := by
  rw [BitVec.toNat_ofNat]
  omega

/-- Settles O34: a success ended at some index `t` and consumed `t + 1` bytes. -/
theorem vuDecSuccessReadsItsBytesOnly : Obligations.VuDecSuccessReadsItsBytesOnly := by
  intro st t s r h hr hok
  rw [exec_vu] at h
  cases h
  obtain rfl : vuResponse s = r := by simpa using hr
  rcases vuResponse_cases s with ⟨-, hresp⟩ | ⟨n, hn, hend, hgo, hresp⟩
  · rw [hresp] at hok
    cases hok
  · have hc : (vuResponse s).consumed.toNat = n + 1 := by
      rw [hresp]
      exact toNat_consumed (by omega)
    simp only [hc, Nat.add_sub_cancel]
    refine ⟨by omega, by omega, by omega, hend, hgo, fun more => ?_, fun hle => ?_⟩
    · rw [exec_vu, vuResponse_congr ⟨hend, hgo⟩ hn (by simp; omega) fun k hk => getD_take_append hk (by omega)]
    · have hlt := vuSum_lt s (n + 1)
      have hpow : 2 ^ (7 * (n + 1)) ≤ 2 ^ 63 := Nat.pow_le_pow_right (by omega) (by omega)
      rw [hresp]
      exact (Nat.mod_eq_of_lt (by omega)).trans_lt hlt

/-! ### Minimal encodings -/

theorem vuSum_cons (b : Byte) (s : List Byte) (n : Nat) :
    vuSum (b :: s) (n + 1) = b.toNat % 128 + 2 ^ 7 * vuSum s n := by
  induction n with
  | zero => simp [vuSum_succ]
  | succ n ih =>
    rw [vuSum_succ, ih, vuSum_succ, List.getD_cons_succ, show 7 * (n + 1) = 7 + 7 * n by ring, pow_add]
    ring

theorem EndsAt.cons {b : Byte} {s : List Byte} {t : Nat} (hb : b.getLsbD 7 = true) (hs : EndsAt s t) :
    EndsAt (b :: s) (t + 1) := by
  obtain ⟨hend, hgo⟩ := hs
  refine ⟨hend, fun k hk => ?_⟩
  cases k with
  | zero => exact hb
  | succ k => exact hgo k (by omega)

/-- The bytes are an encoding of `v` that ends at index `t`, its last. -/
def Encodes (s : List Byte) (v t : Nat) : Prop := s.length = t + 1 ∧ EndsAt s t ∧ vuSum s (t + 1) = v

theorem encodes_single {v : Nat} (hv : v < 128) : Encodes [BitVec.ofNat 8 v] v 0 := by
  have hnat : (BitVec.ofNat 8 v).toNat = v := by
    rw [BitVec.toNat_ofNat]
    omega
  refine ⟨rfl, ⟨Bool.eq_false_iff.2 fun hb => ?_, fun k hk => by omega⟩, ?_⟩
  · have := (byte_high_iff _).1 hb
    rw [List.getD_cons_zero] at this
    omega
  · rw [vuSum_cons, vuSum_zero, hnat]
    omega

/-- A group before an encoding, with the high bit set, is the least significant group. -/
theorem Encodes.cons {s : List Byte} {v t : Nat} (h : Encodes s (v / 128) t) :
    Encodes (BitVec.ofNat 8 (128 + v % 128) :: s) v (t + 1) := by
  obtain ⟨hlen, hends, hsum⟩ := h
  have hnat : (BitVec.ofNat 8 (128 + v % 128)).toNat = 128 + v % 128 := by
    rw [BitVec.toNat_ofNat]
    omega
  refine ⟨by rw [List.length_cons, hlen], hends.cons ((byte_high_iff _).2 (by omega)), ?_⟩
  rw [vuSum_cons, hsum, hnat]
  omega

/-- The minimal encoding of a number of at most `m + 1` groups is an encoding of it, within its bound. -/
theorem minimalVarint_encodes {m v : Nat} (hv : v < 2 ^ (7 * (m + 1))) :
    ∃ t, t ≤ m ∧ Encodes (minimalVarint (m + 1) v) v t := by
  induction m generalizing v with
  | zero =>
    have hlt : v < 128 := by simpa using hv
    rw [minimalVarint, if_pos hlt]
    exact ⟨0, by omega, encodes_single hlt⟩
  | succ m ih =>
    rw [minimalVarint]
    by_cases hlt : v < 128
    · rw [if_pos hlt]
      exact ⟨0, by omega, encodes_single hlt⟩
    · have hdiv : v / 128 < 2 ^ (7 * (m + 1)) := by
        rw [show 7 * (m + 1 + 1) = 7 * (m + 1) + 7 by ring, pow_add] at hv
        omega
      obtain ⟨t, ht, henc⟩ := ih hdiv
      rw [if_neg hlt]
      exact ⟨t + 1, by omega, henc.cons⟩

/-- Settles O35: ten groups of seven bits hold 64 bits, and nothing past the byte that ends the number matters. -/
theorem vuDecDecodesEveryMinimalEncoding : Obligations.VuDecDecodesEveryMinimalEncoding := by
  intro st v more hv
  obtain ⟨t, ht, hlen, hends, hsum⟩ : ∃ t, t ≤ 9 ∧ Encodes (minimalVarint 10 v) v t :=
    minimalVarint_encodes (by omega)
  have hget : ∀ k, k < t + 1 → (minimalVarint 10 v ++ more).getD k 0 = (minimalVarint 10 v).getD k 0 :=
    fun k hk => List.getD_append _ _ _ _ (by omega)
  refine ⟨by omega, ?_⟩
  rw [exec_vu, vuResponse_congr hends (by omega) (by simp; omega) hget, vuResponse_of_endsAt (by omega) hends, hsum,
    hlen]
  rfl

/-! ### The port-level form -/

/-- The scan looks at no more bytes than its bound. -/
theorem vuScan_take (more i : Nat) (acc : BitVec 64) (s : List Byte) :
    vuScan more i acc (s.take more) = vuScan more i acc s := by
  induction more generalizing i acc s with
  | zero => rfl
  | succ m ih =>
    cases s with
    | nil => rfl
    | cons b rest => rw [List.take_succ_cons, vuScan, vuScan, ih]

/-- A window whose lanes and count are those of the operand presents its first ten bytes (R54). -/
theorem VuWindow.bytes_eq_take {s : List Byte} {v : VuWindow}
    (hlanes : ∀ i (h : i < 10), i < s.length → v.lanes[i] = s.getD i 0)
    (havail : v.avail.toNat = min s.length 10 ∨ (10 ≤ s.length ∧ 10 ≤ v.avail.toNat)) : v.bytes = s.take 10 := by
  refine List.ext_getElem ?_ fun i hi hi' => ?_
  · simp [VuWindow.bytes, Config.vuScanMax]
    omega
  · rw [List.length_take] at hi'
    have hlane := hlanes i (by omega) (by omega)
    rw [List.getD_eq_getElem _ _ (by omega)] at hlane
    simpa [VuWindow.bytes] using hlane

/-- Settles O36: the window presents the bytes the decoder would look at. -/
theorem vuDecWindowIsEquivalent : Obligations.VuDecWindowIsEquivalent := by
  intro st s v hlanes havail
  rw [exec_vu, exec_vu, VuWindow.bytes_eq_take hlanes havail, vuResponse, vuResponse, Config.vuScanMax, vuScan_take]

end Sys2Proof.Machine
end

section
/-! SUPPORT and PROOF. Construction, reset and the end of the payload (spec/43_lifecycle.md,
spec/70_reset_and_hazards.md section 1, spec/60_exceptions.md sections 1, 4 and 5). -/

namespace Sys2Proof.Machine

/-! ### The step -/

/-- Settles O3: the word decodes, so the step is the command's meaning. -/
theorem stepRunsTheDecodedCommand : Obligations.StepRunsTheDecodedCommand :=
  fun _ _ _ _ _ hp hd => step_of_decode_ok hp hd

/-- Settles O5: there is no event to take. -/
theorem nothingHappensUnlessPresented : Obligations.NothingHappensUnlessPresented :=
  fun _ hp => step_of_pending_nil hp

/-- Settles O6: the readers of `resetBlock` are the empty ones. -/
theorem resetEventEmptiesBothReaders : Obligations.ResetEventEmptiesBothReaders :=
  fun _ _ hp => step_of_reset hp

/-- Settles O39: the table has one row for each kind. -/
theorem kindCodesAreThoseOfTheTable : Obligations.KindCodesAreThoseOfTheTable := by
  refine ⟨rfl, rfl, rfl, rfl, rfl, rfl, fun k => ?_⟩
  cases k <;> decide

/-! ### Construction -/

/-- `EG.INIT` takes no step that can fail: the new reader replaces the old one and the answer is 0 (R110). -/
theorem exec_egInit (payload : List Byte) (s : State) :
    exec (.egInit payload) s = .next ((s.withEg (.construct payload)).respond (.success 0)) := by
  rw [exec_eg rfl, egSteps, State.finishEg_done]
  rfl

/-- Settles O14: the payload's bytes are what the space constructed over them reads as. -/
theorem egInitConstructsAReader : Obligations.EgInitConstructsAReader :=
  ⟨fun payload => decode_encodeWord (i := .egInit payload) rfl payload,
    fun s payload => ⟨Memory.ofBytes payload, exec_egInit payload s, Memory.read_ofBytes payload⟩⟩

/-- Settles O53: both constructed readers are legal. -/
theorem initCompletesInEveryState : Obligations.InitCompletesInEveryState :=
  fun s payload =>
    ⟨⟨_, exec_egInit payload s, EgReader.construct_legal payload, rfl, rfl, rfl, rfl, rfl, rfl⟩,
      ⟨_, exec_avInit payload s, AvReader.construct_legal payload, rfl, rfl, rfl, rfl, rfl, rfl, rfl⟩⟩

/-! ### At the end of the payload -/

/-- The command fails `EXHAUSTED` and changes no unit. -/
def FailsExhausted (i : Instr) (s : State) : Prop := exec i s = .next (s.respond (.failure .exhausted))

theorem egReadBits_end {r : EgReader} (h : 8 * r.len ≤ r.pos) {n : Nat} (hn : 1 ≤ n) (v : BitVec 32) :
    egReadBits n v r = .fail .exhausted r := by
  obtain ⟨m, rfl⟩ : ∃ m, n = m + 1 := ⟨n - 1, by omega⟩
  rw [egReadBits, egBit_end h, Attempt.bind]

theorem avReadBits_end {r : AvReader} (h : r.len ≤ r.byte) {n : Nat} (hn : 1 ≤ n) (v : BitVec 64) :
    avReadBits n v r = .fail .exhausted r := by
  obtain ⟨m, rfl⟩ : ∃ m, n = m + 1 := ⟨n - 1, by omega⟩
  rw [avReadBits, avBit_end h, Attempt.bind]

theorem egDecodeUe_end {r : EgReader} (h : 8 * r.len ≤ r.pos) : egDecodeUe r = .fail .exhausted r := by
  rw [egDecodeUe, egPrefix, egBit_end h, Attempt.bind, Attempt.bind]

theorem failsExhausted_egRdbits {s : State} (h : 8 * s.eg.len ≤ s.eg.pos) {n : Nat} (hn : 1 ≤ n) (hn' : n ≤ 32) :
    FailsExhausted (.egRdbits n) s := by
  rw [FailsExhausted, exec_eg rfl, egSteps, egReadField_narrow hn', egReadBits_end h hn]
  rfl

theorem failsExhausted_avRdbits {s : State} (h : s.av.len ≤ s.av.byte) {n : Nat} (hn : 1 ≤ n) (hn' : n ≤ 64) :
    FailsExhausted (.avRdbits n) s := by
  rw [FailsExhausted, exec_av rfl, avSteps, avReadField_narrow hn', avReadBits_end h hn]
  rfl

/-- One bit and the four Exp-Golomb codes need a bit. -/
theorem failsExhausted_eg {s : State} (h : 8 * s.eg.len ≤ s.eg.pos) {i : Instr}
    (hi : i ∈ [Instr.egRdbit, .egRdue, .egRdse, .egSkue, .egSkse]) : FailsExhausted i s := by
  simp only [List.mem_cons, List.not_mem_nil, or_false] at hi
  rcases hi with rfl | rfl | rfl | rfl | rfl
  · rw [FailsExhausted, (rdbitIsRdbitsOfOne s).1]
    exact failsExhausted_egRdbits h (by omega) (by omega)
  · rw [FailsExhausted, exec_egRdue, egDecodeUe_end h]
    rfl
  · rw [FailsExhausted, exec_egRdse, egDecodeUe_end h]
    rfl
  · rw [FailsExhausted, exec_egSkue, egDecodeUe_end h]
    rfl
  · rw [FailsExhausted, exec_egSkse_eq_egSkue, exec_egSkue, egDecodeUe_end h]
    rfl

theorem failsExhausted_avRdbit {s : State} (h : s.av.len ≤ s.av.byte) : FailsExhausted .avRdbit s := by
  rw [FailsExhausted, (rdbitIsRdbitsOfOne s).2]
  exact failsExhausted_avRdbits h (by omega) (by omega)

/-- Settles O42: each of the commands needs a bit, and the first it asks for is not there. -/
theorem exhaustionIsIdempotent : Obligations.ExhaustionIsIdempotent := by
  refine fun s => ⟨fun h i hi => ?_, fun h i hi => ?_⟩
  · rcases hi with hi | ⟨n, rfl, hn, hn'⟩
    · exact failsExhausted_eg h hi
    · exact failsExhausted_egRdbits h hn hn'
  · rcases hi with rfl | ⟨n, rfl, hn, hn'⟩
    · exact failsExhausted_avRdbit h
    · exact failsExhausted_avRdbits h hn hn'

/-! ### Before any `INIT` -/

/-- What `RDBITS n` answers over an empty payload, for a reader that accepts widths up to `bound`. -/
def emptyRdbitsResponse (bound n : Nat) : Response :=
  if n = 0 then ⟨true, .none, 0, 0⟩ else if bound < n then ⟨false, .invalidWidth, 0, 0⟩ else ⟨false, .exhausted, 0, 0⟩

theorem exec_egRdbits_end {s : State} (h : 8 * s.eg.len ≤ s.eg.pos) (n : Nat) :
    exec (.egRdbits n) s = .next (s.respond (emptyRdbitsResponse 32 n)) := by
  rw [emptyRdbitsResponse]
  split_ifs with h0 hwide
  · subst h0
    rfl
  · rw [exec_eg rfl, egSteps, egReadField_wide hwide]
    rfl
  · exact failsExhausted_egRdbits h (by omega) (by omega)

theorem exec_avRdbits_end {s : State} (h : s.av.len ≤ s.av.byte) (n : Nat) :
    exec (.avRdbits n) s = .next (s.respond (emptyRdbitsResponse 64 n)) := by
  rw [emptyRdbitsResponse]
  split_ifs with h0 hwide
  · subst h0
    rfl
  · rw [exec_av rfl, avSteps, avReadField_wide hwide]
    rfl
  · exact failsExhausted_avRdbits h (by omega) (by omega)

/-- Settles O7: after reset both readers stand at the end of an empty payload. -/
theorem readsBeforeInitFindAnEmptyPayload : Obligations.ReadsBeforeInitFindAnEmptyPayload := by
  intro s heg hav
  have hegEnd : 8 * s.eg.len ≤ s.eg.pos := by
    rw [heg]
    exact le_rfl
  have havEnd : s.av.len ≤ s.av.byte := by
    rw [hav]
    exact le_rfl
  refine ⟨fun i hi => ?_, exec_egRdbits_end hegEnd, exec_avRdbits_end havEnd, fun bytes => ⟨_, exec_vu bytes s⟩,
    fun payload => ⟨_, exec_egInit payload s⟩, fun payload => ⟨_, exec_avInit payload s⟩⟩
  rw [show [Instr.egRdbit, .egRdue, .egRdse, .egSkue, .egSkse, .avRdbit] =
    [Instr.egRdbit, .egRdue, .egRdse, .egSkue, .egSkse] ++ [.avRdbit] from rfl, List.mem_append] at hi
  rcases hi with hi | hi
  · exact failsExhausted_eg hegEnd hi
  · rw [List.mem_singleton.1 hi]
    exact failsExhausted_avRdbit havEnd

end Sys2Proof.Machine
end
